-- ==== Sys2Proof/Word.lean ====
section
/-!
DEFINITION. The word types of the block (spec 00_scope.md R6, R7): every value is unsigned.
-/

namespace Sys2Proof

/-- A sample, a port register, a mixed output: 8 bits (R6 `SAMPW`). -/
abbrev Byte := BitVec 8

/-- `BUF`, `LEN`, `LOC`, `STEP`, an address, the sample sum: 16 bits (R6). -/
abbrev Half := BitVec 16

/-- A command word `CMD[63:0]` (R6 `CMDW`, 30_encoding.md R80). -/
abbrev CmdWord := BitVec 64

/-- The index of a waveform context, 3 bits (10_state.md R21). -/
abbrev CtxIdx := BitVec 3

end Sys2Proof
end

