-- ==== Sys2Proof/Syntax.lean ====
section
/-!
DEFINITION. The instructions, one constructor per row of spec/opcode_table.json, and the two events they arrive as.
-/

namespace Sys2Proof

/-- The six operations (30_encoding.md R89). Every operand is an unsigned field taken as it stands (R88). -/
inductive Instr where
  /-- `ECFG off, mode, rate` (41_channel_set.md R141), format E (R82). -/
  | ecfg (off : BitVec 3) (mode : BitVec 1) (rate : BitVec 8)
  /-- `PLAY count, ch0..ch4` (41_channel_set.md R144), format P (R83). -/
  | play (count : BitVec 8) (ch0 ch1 ch2 ch3 ch4 : CtxIdx)
  /-- `STOP` (41_channel_set.md R147), format S (R84). -/
  | stop
  /-- `WCFG w, buf, len, step` (40_stepping.md R115), format W (R85). -/
  | wcfg (w : CtxIdx) (buf len step : Half)
  /-- `WSTEP w, step` (40_stepping.md R118), format T (R86). -/
  | wstep (w : CtxIdx) (step : Half)
  /-- `TICK` (42_tick_mix_output.md R170), format EV (R87). -/
  | tick
  deriving DecidableEq, Repr

/-- The two input interfaces (R80): a command word from `HOST`, and the one-bit tick input from `TS` (R87). -/
inductive Event where
  /-- One word on the command port, delivered whole. -/
  | command (word : CmdWord)
  /-- The tick input; the value 1 is a tick (R87). -/
  | tick (line : BitVec 1)
  deriving DecidableEq, Repr

end Sys2Proof
end

