-- ==== Sys2Proof/Decode.lean ====
section
/-!
DEFINITION. Decoding of command words and of the tick input, total on every input (30_encoding.md R89, R90, R93), and
the encoder (R82 to R87).
-/

namespace Sys2Proof

/-- Why an event is no instruction. -/
inductive DecodeError where
  /-- A command word whose `op` is `0000` or `0110` to `1111` (R90). -/
  | reservedOp (op : BitVec 4)
  /-- A command word of a known `op` with a must-be-zero bit set (R81, R90). -/
  | mustBeZero (op : BitVec 4)
  /-- The tick input at 0: no tick was raised (R87). -/
  | noTick
  deriving DecidableEq, Repr

/-- `c[lo + len - 1 : lo]` (00_scope.md R7). -/
def field (c : CmdWord) (lo len : Nat) : BitVec len := c.extractLsb' lo len

/-- `op = CMD[63:60]` (R81). -/
def opOf (c : CmdWord) : BitVec 4 := field c 60 4

/-- The masks of R89: the bits each row fixes. -/
def maskEcfg : CmdWord := 0xFFFFFFFFFFFF00E8
def maskPlay : CmdWord := 0xFF00FFFFFFFF8000
def maskStop : CmdWord := 0xFFFFFFFFFFFFFFFF
def maskWcfg : CmdWord := 0xF8FF000000000000
def maskWstep : CmdWord := 0xF8FFFFFFFFFF0000

/-- The matches of R89: the values of the fixed bits. -/
def matchEcfg : CmdWord := 0x1000000000000000
def matchPlay : CmdWord := 0x2000000000000000
def matchStop : CmdWord := 0x3000000000000000
def matchWcfg : CmdWord := 0x4000000000000000
def matchWstep : CmdWord := 0x5000000000000000

/-- The fields of format E (R82). -/
def fieldsEcfg (c : CmdWord) : Instr := .ecfg (field c 0 3) (field c 4 1) (field c 8 8)

/-- The fields of format P (R83). -/
def fieldsPlay (c : CmdWord) : Instr :=
  .play (field c 48 8) (field c 0 3) (field c 3 3) (field c 6 3) (field c 9 3) (field c 12 3)

/-- The fields of format W (R85). -/
def fieldsWcfg (c : CmdWord) : Instr := .wcfg (field c 56 3) (field c 32 16) (field c 16 16) (field c 0 16)

/-- The fields of format T (R86). -/
def fieldsWstep (c : CmdWord) : Instr := .wstep (field c 56 3) (field c 0 16)

/-- A word of a known `op` is its row's instruction when its must-be-zero bits are zero, else reserved (R93). -/
def checkRow (c mask pattern : CmdWord) (i : Instr) : Except DecodeError Instr :=
  if c &&& mask = pattern then .ok i else .error (.mustBeZero (opOf c))

/-- The instruction of a command word (R89, R93). -/
def decodeCommand (c : CmdWord) : Except DecodeError Instr :=
  if opOf c = 1 then checkRow c maskEcfg matchEcfg (fieldsEcfg c)
  else if opOf c = 2 then checkRow c maskPlay matchPlay (fieldsPlay c)
  else if opOf c = 3 then checkRow c maskStop matchStop .stop
  else if opOf c = 4 then checkRow c maskWcfg matchWcfg (fieldsWcfg c)
  else if opOf c = 5 then checkRow c maskWstep matchWstep (fieldsWstep c)
  else .error (.reservedOp (opOf c))

/-- The instruction of the tick input (R87). -/
def decodeTick (line : BitVec 1) : Except DecodeError Instr :=
  if line = 1 then .ok .tick else .error .noTick

/-- The instruction of an event. It needs no state of the block (R93). -/
def decode : Event → Except DecodeError Instr
  | .command word => decodeCommand word
  | .tick line => decodeTick line

/-- Format E, from bit 63 down (R82). -/
def encodeEcfg (off : BitVec 3) (mode : BitVec 1) (rate : BitVec 8) : CmdWord :=
  (1#4 ++ 0#44 ++ rate ++ 0#3 ++ mode ++ 0#1 ++ off : BitVec 64)

/-- Format P, from bit 63 down (R83). -/
def encodePlay (count : BitVec 8) (ch0 ch1 ch2 ch3 ch4 : CtxIdx) : CmdWord :=
  (2#4 ++ 0#4 ++ count ++ 0#33 ++ ch4 ++ ch3 ++ ch2 ++ ch1 ++ ch0 : BitVec 64)

/-- Format S, from bit 63 down (R84). -/
def encodeStop : CmdWord := (3#4 ++ 0#60 : BitVec 64)

/-- Format W, from bit 63 down (R85). -/
def encodeWcfg (w : CtxIdx) (buf len step : Half) : CmdWord :=
  (4#4 ++ 0#1 ++ w ++ 0#8 ++ buf ++ len ++ step : BitVec 64)

/-- Format T, from bit 63 down (R86). -/
def encodeWstep (w : CtxIdx) (step : Half) : CmdWord :=
  (5#4 ++ 0#1 ++ w ++ 0#40 ++ step : BitVec 64)

/-- The event that stands for an instruction (R82 to R87). -/
def encode : Instr → Event
  | .ecfg off mode rate => .command (encodeEcfg off mode rate)
  | .play count ch0 ch1 ch2 ch3 ch4 => .command (encodePlay count ch0 ch1 ch2 ch3 ch4)
  | .stop => .command encodeStop
  | .wcfg w buf len step => .command (encodeWcfg w buf len step)
  | .wstep w step => .command (encodeWstep w step)
  | .tick => .tick 1

/-- The event whose bits are `w`, numbered as spec/opcode_table.json numbers them: a row of 64 bits is a command word,
a narrower one (`TICK`, one bit, given in whole bytes) is the tick input, its bit 0 (log 20). -/
def tableEvent (nbits w : Nat) : Event :=
  if 64 ≤ nbits then .command (BitVec.ofNat 64 w) else .tick (BitVec.ofNat 1 w)

/-- The instruction the decoder reads from the bits `w` of an opcode-table row. -/
def decodeTableWord (nbits w : Nat) : Option Instr :=
  match decode (tableEvent nbits w) with
  | .ok i => some i
  | .error _ => none

end Sys2Proof
end

