-- ==== Sys2Proof/Config.lean ====
section
/-!
DEFINITION. The implementation parameters (spec 00_scope.md R6) and the free value of spec 93 U7.

The parameters are plain data that the machine carries unchanged, so that a statement about every state is a
statement about every choice of them (log 3).
-/

namespace Sys2Proof

/-- The parameters a model takes as arguments (R6): `NW` and `MIXTABLE`. -/
structure Config where
  /-- `NW`, the number of waveform contexts (R6, R21), legal 1..8. -/
  nw : Nat
  /-- `MIXTABLE`, the (multiplier, shift) pair of each count 0..5 (R176). -/
  mixTable : Vector (BitVec 8 × BitVec 4) 6
  deriving DecidableEq, Repr

/-- FREE VALUE (spec 93 U7, U15; log 2): the byte the `n`-th fetch of storage nobody provided yields.
It has no body: nothing can be proved of its value. -/
opaque Config.freeByte : Nat → Byte

end Sys2Proof
end

