-- ==== Sys2Proof/Machine/Params.lean ====
section
/-!
DEFINITION. The defaults of the parameters, the lookup in `MIXTABLE`, and what the spec asks of a choice of them.
-/

namespace Sys2Proof

/-- The defaults: `NW = 8` (R6) and the table of 42_tick_mix_output.md R176 (log 3, log 18). -/
def Config.default : Config where
  nw := 8
  mixTable := #v[(1, 0), (1, 0), (1, 1), (85, 8), (1, 2), (51, 8)]

/-- `MIXTABLE[count]`, for a count of at most 5. -/
def Config.mixPair (c : Config) (count : Nat) : BitVec 8 × BitVec 4 :=
  c.mixTable.toList.getD count (1, 0)

/-- The pair of a count keeps the mixer free of overflow (R179). -/
def Config.pairFits (count : Nat) (p : BitVec 8 × BitVec 4) : Bool :=
  decide (255 * count * p.1.toNat < 2 ^ 16) && decide ((255 * count * p.1.toNat) >>> p.2.toNat ≤ 255)

/-- What R6 (`NW` in 1..8) and R179 ask of the parameters: entry 3 is (85, 8) and no entry overflows. -/
def Config.legal (c : Config) : Bool :=
  decide (1 ≤ c.nw) && decide (c.nw ≤ 8) && (c.mixPair 3 == (85, 8)) &&
    (List.range' 1 5).all (fun n => Config.pairFits n (c.mixPair n))

end Sys2Proof
end

