-- ==== Sys2Proof/Machine/State.lean ====
section
/-!
DEFINITION. The state of the block and of what it touches (spec 10_state.md), as plain data, and the state after reset.
-/

namespace Sys2Proof.Machine

/-- The two sample memories (20_memory.md R60). -/
inductive Space where
  | ram
  | rom
  deriving DecidableEq, Repr

/-- The two port registers (10_state.md R35): `lo` holds lines 0..7, `hi` lines 8..15. -/
inductive Port where
  | lo
  | hi
  deriving DecidableEq, Repr

/-- One access of the block, with its value (00_scope.md R10: what is observed of a run; 20_memory.md R67). -/
inductive Access where
  | memRead (space : Space) (addr : Half) (v : Byte)
  | ioRead (p : Port) (v : Byte)
  | ioWrite (p : Port) (v : Byte)
  deriving DecidableEq, Repr

/-- One input from outside the block, the unit of a step. -/
inductive Input where
  /-- A command word from `HOST` or the tick input from `TS` (R10, R80). -/
  | event (e : Event)
  /-- A command and a tick raised at the same moment (60_exceptions.md R215). -/
  | commandAndTick (word : CmdWord)
  /-- `HOST` writes a port register with its own store (10_state.md R35, R43). -/
  | hostPort (p : Port) (v : Byte)
  /-- `HOST` stores a sample byte (10_state.md R43; 20_memory.md R73). -/
  | hostStore (space : Space) (addr : Half) (v : Byte)
  /-- `HOST` frees a sample byte: it is storage nobody provides any more (70 R244; 93 U7). -/
  | hostFree (space : Space) (addr : Half)
  /-- The reset event (70_reset_and_hazards.md R241). -/
  | reset
  deriving DecidableEq, Repr

/-- A sample memory: its provided bytes, by strictly rising address. An address not listed holds no value (log 2). -/
abbrev Memory := List Host.Cell

/-- A waveform context `W[w]` (10_state.md R21 to R27). -/
structure Ctx where
  /-- `BUF` (R22). -/
  buf : Half
  /-- `LEN` (R23). -/
  len : Half
  /-- `LOC` (R24). -/
  loc : Half
  /-- `REM` (R25). -/
  rem : BitVec 9
  /-- `STEP` (R26). -/
  step : Half
  /-- A `WCFG` has written `BUF`, `LEN`, `LOC`, `REM` since reset (R12, R42). A tick never sets it (DESIGN CHOICE: log 26). No
  register's value depends on it (log 15). -/
  posWritten : Bool
  /-- `STEP` has been written since reset (R42; 40_stepping.md R120). No register's value depends on it (log 15). -/
  stepWritten : Bool
  deriving DecidableEq, Repr

/-- The machine: the block (R20 a, b), the external state it touches (R20 c, d), what is observed (R10) and the model's
own fields (the inputs to come, log 4; the parameters, log 3; the count of free values drawn, log 2). -/
structure State where
  /-- The implementation parameters; no event writes them (log 3). -/
  cfg : Config
  /-- The waveform context file (R21). Slots at or above `NW` are no hardware (log 11). -/
  ctxs : Vector Ctx 8
  /-- `CNT` (R28). -/
  cnt : BitVec 3
  /-- `CHSEL[0..4]` (R29). -/
  chsel : Vector CtxIdx 5
  /-- `MIXM` (R30). -/
  mixm : BitVec 8
  /-- `MIXS` (R30). -/
  mixs : BitVec 4
  /-- `OFFSET` (R31). -/
  offset : BitVec 3
  /-- `LMASK` (R31): the bits of `P_LO` kept. -/
  lmask : Byte
  /-- `UMASK` (R31): the bits of `P_HI` kept. -/
  umask : Byte
  /-- `RMODE` (R32): 0 = `RAM`, 1 = `ROM`. -/
  rmode : BitVec 1
  /-- `TRATE` (R33): driven out to the tick source, read by nothing in the block. -/
  trate : Byte
  /-- `TEN` (R34). -/
  ten : BitVec 1
  /-- `OFFSET`, `LMASK`, `UMASK`, `RMODE`, `TRATE` have been written since reset (R12, R42; log 15). -/
  cfgWritten : Bool
  /-- `P_LO` (R35), external. -/
  pLo : Byte
  /-- `P_HI` (R35), external. -/
  pHi : Byte
  /-- `RAM` (R36), external. -/
  ram : Memory
  /-- `ROM` (R36), external. -/
  rom : Memory
  /-- The accesses made so far, oldest first (R10, R67; log 12). -/
  trace : List Access
  /-- How many free values have been drawn (log 2). -/
  draws : Nat
  /-- The inputs not yet performed, in the order the agents raise them (log 4). -/
  inputs : List Input
  deriving DecidableEq, Repr

/-- Why the machine stops with a fault: never. The block raises no exception (60_exceptions.md R210), every access
exists (20_memory.md R64, R69) and every event has an effect or is ignored (R211, R212). No step raises one; safe. -/
inductive Fault where
  deriving DecidableEq, Repr

/-- Why an instruction has no meaning in the model. -/
inductive Refusal where
  /-- Raised by an arm of `exec` whose instruction has no meaning yet. Every arm has one, so no step raises it; safe. -/
  | notModelled (mnemonic : String)
  deriving DecidableEq, Repr

/-- A context no event has written: the spec gives it no value (R22 to R26, R42); the model names 0 (log 1). -/
def Ctx.reset : Ctx where
  buf := 0
  len := 0
  loc := 0
  rem := 0
  step := 0
  posWritten := false
  stepWritten := false

/-- The machine right after reset (10_state.md R40, 70_reset_and_hazards.md R240). `TEN`, `CNT`, `CHSEL`, `MIXM`, `MIXS`
have the spec's values; registers the spec leaves unwritten hold 0 (log 1); nothing is provided in the memories (log 2). -/
def State.reset : State where
  cfg := Config.default
  ctxs := Vector.replicate 8 Ctx.reset
  cnt := 0
  chsel := #v[0, 0, 0, 0, 0]
  mixm := 1
  mixs := 0
  offset := 0
  lmask := 0
  umask := 0
  rmode := 0
  trate := 0
  ten := 0
  cfgWritten := false
  pLo := 0
  pHi := 0
  ram := []
  rom := []
  trace := []
  draws := 0
  inputs := []

end Sys2Proof.Machine
end

