-- ==== Sys2Proof/Machine/Flags.lean ====
section
/-!
DEFINITION. The conditions the block tests. It has no status flags (10_state.md R37): no condition survives an event.
The tests are those of 60_exceptions.md R211 (F1 to F5, F7, F8) and of the conditional subtraction (42 R186 e).
-/

namespace Sys2Proof.Machine

/-- F1: `PLAY` asks for more channels than `MAXCH = 5` (41_channel_set.md R145). -/
def countTooLarge (count : BitVec 8) : Bool := decide (5 < count.toNat)

/-- The context `w` exists: `w < NW` (R21, F5). -/
def ctxExists (c : Config) (w : CtxIdx) : Bool := decide (w.toNat < c.nw)

/-- F2: some visited index of `PLAY` names no context (41_channel_set.md R146). -/
def visitsMissing (c : Config) (visited : List CtxIdx) : Bool := visited.any (fun w => !ctxExists c w)

/-- F3, negated: the pin offset lies in `OFFMIN..OFFMAX`, 2..6 (41_channel_set.md R142). -/
def offsetLegal (off : BitVec 3) : Bool := decide (2 ≤ off.toNat) && decide (off.toNat ≤ 6)

/-- F4: `WCFG` with a zero length (40_stepping.md R116). -/
def lenZero (len : Half) : Bool := len == 0

/-- F7: ticks are disabled (42_tick_mix_output.md R171). -/
def ticksDisabled (s : State) : Bool := s.ten == 0

/-- F8: the silent state, tested on `CNT` alone (42_tick_mix_output.md R172). -/
def silent (s : State) : Bool := s.cnt == 0

/-- The end of the buffer was reached: `l >= LEN`, unsigned (40_stepping.md R110). -/
def pastEnd (l len : Half) : Bool := decide (len.toNat ≤ l.toNat)

end Sys2Proof.Machine
end

