-- ==== Sys2Proof/Machine/Operands.lean ====
section
/-!
DEFINITION. The values the operations compute from their operands: masks, read mode, sample address, the channels a
tick visits, the stepping adder, the mixer and the two halves of the output packer.
-/

namespace Sys2Proof.Machine

/-- `LMASK` of an offset: `(1 << off) - 1` (41_channel_set.md R141). -/
def lowerMask (off : BitVec 3) : Byte := (1#8 <<< off.toNat) - 1

/-- `UMASK` of an offset: `(0xFF << off) & 0xFF` (41_channel_set.md R141). -/
def upperMask (off : BitVec 3) : Byte := 0xFF#8 <<< off.toNat

/-- The memory `RMODE` selects (10_state.md R32, 20_memory.md R61). -/
def spaceOf (rmode : BitVec 1) : Space := if rmode = 0 then .ram else .rom

/-- `BUF +_16 LOC`, modulo `2^16` (20_memory.md R62). -/
def sampleAddr (x : Ctx) : Half := x.buf + x.loc

/-- The first `count` of the five channel fields of a `PLAY` (41_channel_set.md R144). -/
def listedChannels (count : BitVec 8) (chs : Vector CtxIdx 5) : List CtxIdx := chs.toList.take count.toNat

/-- The contexts a tick visits, in ascending channel order: `CHSEL[0..CNT-1]` (42_tick_mix_output.md R170, R174; log 10). -/
def visited (s : State) : List CtxIdx := s.chsel.toList.take s.cnt.toNat

/-- `t`: the 16-bit sum of the remainder and the step, carry out dropped (40_stepping.md R110). -/
def stepSum (x : Ctx) : Half := x.rem.setWidth 16 + x.step

/-- `inc = t >> 9`, the whole samples of the advance (40_stepping.md R110). -/
def stepInc (x : Ctx) : Half := stepSum x >>> 9

/-- `l`: the 16-bit sum of the location and the advance, carry out dropped (40_stepping.md R110). -/
def stepLoc (x : Ctx) : Half := x.loc + stepInc x

/-- `t[8:0]` (40_stepping.md R110). -/
def stepRem (x : Ctx) : BitVec 9 := (stepSum x).setWidth 9

/-- `MIX(sum)`: the exact product, shifted right, its low 8 bits (42_tick_mix_output.md R177). -/
def mix (m : BitVec 8) (k : BitVec 4) (sum : Half) : Byte :=
  BitVec.ofNat 8 ((sum.toNat * m.toNat) >>> k.toNat)

/-- What `PACK` writes to `P_LO`: the kept bits and the low `8 - OFFSET` bits of the output (42_tick_mix_output.md R182). -/
def packLo (lmask : Byte) (off : BitVec 3) (out a : Byte) : Byte := (a &&& lmask) ||| (out <<< off.toNat)

/-- What `PACK` writes to `P_HI`: the kept bits and the high `OFFSET` bits of the output (42_tick_mix_output.md R182). -/
def packHi (umask : Byte) (off : BitVec 3) (out b : Byte) : Byte := (b &&& umask) ||| (out >>> (8 - off.toNat))

end Sys2Proof.Machine
end

