-- ==== Sys2Proof/Machine/Ops.lean ====
section
/-!
DEFINITION. The named operations over memory, ports, contexts and the engine registers.

There is no operation that takes an exception and none that returns from one: the block raises no exception and has no
trap entry or return (60_exceptions.md R210, R217, R218).
-/

namespace Sys2Proof.Machine

/-- The canonical form of a memory: addresses strictly rising and below `2^16` (20_memory.md R60). -/
abbrev Memory.wf (m : Memory) : Prop :=
  m.Pairwise (fun c d => c.1 < d.1) ∧ ∀ c ∈ m, c.1 < 2 ^ 16

/-- The byte provided at an address, if any (20_memory.md R61; log 2). -/
def readByte : Memory → Nat → Option Byte
  | [], _ => none
  | c :: m, a => if c.1 = a then some c.2 else readByte m a

/-- Replace or insert the byte at an address, keeping the canonical form. -/
def writeByte : Memory → Nat → Byte → Memory
  | [], a, v => [(a, v)]
  | c :: m, a, v =>
    if a < c.1 then (a, v) :: c :: m
    else if c.1 = a then (a, v) :: m
    else c :: writeByte m a v

/-- Take the byte at an address away: nobody provides it any more (93 U7). -/
def eraseByte (m : Memory) (a : Nat) : Memory := m.filter (fun c => decide (c.1 ≠ a))

/-- The sample memory of a space (20_memory.md R60). -/
def State.memory (s : State) : Space → Memory
  | .ram => s.ram
  | .rom => s.rom

/-- The state with one sample memory replaced. -/
def State.setMemory (s : State) (space : Space) (m : Memory) : State :=
  match space with
  | .ram => { s with ram := m }
  | .rom => { s with rom := m }

/-- The byte a fetch yields: the provided one, else the next free value (93 U7: any value for each byte fetched). -/
def State.sampleByte (s : State) (space : Space) (addr : Half) : Byte :=
  (readByte (s.memory space) addr.toNat).getD (Config.freeByte s.draws)

/-- The count of free values after a fetch: one more when nobody provided the byte. -/
def State.drawsAfter (s : State) (space : Space) (addr : Half) : Nat :=
  if (readByte (s.memory space) addr.toNat).isNone then s.draws + 1 else s.draws

/-- `MemRead(space, addr, 1)`: no side effect on any memory or register; the access is observed (20_memory.md R61, R66). -/
def State.memRead (s : State) (space : Space) (addr : Half) : State :=
  { s with
    trace := s.trace ++ [.memRead space addr (s.sampleByte space addr)]
    draws := s.drawsAfter space addr }

/-- The value of a port register (20_memory.md R65). -/
def State.port (s : State) : Port → Byte
  | .lo => s.pLo
  | .hi => s.pHi

/-- The state with one port register replaced (20_memory.md R65). -/
def State.setPort (s : State) (p : Port) (v : Byte) : State :=
  match p with
  | .lo => { s with pLo := v }
  | .hi => { s with pHi := v }

/-- `IoRead(P)`: the value is `State.port`; the access is observed (20_memory.md R65). -/
def State.ioRead (s : State) (p : Port) : State :=
  { s with trace := s.trace ++ [.ioRead p (s.port p)] }

/-- `IoWrite(P, v)`: the register takes `v`; the access is observed (20_memory.md R65). -/
def State.ioWrite (s : State) (p : Port) (v : Byte) : State :=
  let t := s.setPort p v
  { t with trace := t.trace ++ [.ioWrite p v] }

/-- The waveform context `W[w]` (10_state.md R21). -/
def State.ctx (s : State) (w : CtxIdx) : Ctx := s.ctxs[w.toNat]'w.isLt

/-- The state with `W[w]` replaced. -/
def State.setCtx (s : State) (w : CtxIdx) (x : Ctx) : State :=
  { s with ctxs := s.ctxs.set w.toNat x w.isLt }

/-- The disable/enable bracket of `PLAY` and `STOP`: `TEN` is 0 inside and 1 at the end, whatever it was
(41_channel_set.md R144, R147, R150). -/
def bracket (update : State → State) (s : State) : State :=
  { update { s with ten := 0 } with ten := 1 }

/-- `STOP`'s update, which a rejected `PLAY` performs too: `CHSEL` and `CNT` to zero, the mix pair kept
(41_channel_set.md R145, R146, R147). -/
def emptyChannels (s : State) : State :=
  { s with chsel := #v[0, 0, 0, 0, 0], cnt := 0 }

/-- The reset event: the registers of the block take the values of `State.reset` whatever they held; the external ports
and memories, the parameters, what was observed and what is to come are not the block's (70 R240, R241; log 14). -/
def resetBlock (s : State) : State :=
  { State.reset with
    cfg := s.cfg
    pLo := s.pLo
    pHi := s.pHi
    ram := s.ram
    rom := s.rom
    trace := s.trace
    draws := s.draws
    inputs := s.inputs }

/-- `HOST` stores a sample byte between two events (20_memory.md R73). -/
def hostStore (space : Space) (addr : Half) (v : Byte) (s : State) : State :=
  s.setMemory space (writeByte (s.memory space) addr.toNat v)

/-- `HOST` frees a sample byte (70 R244; 93 U7). -/
def hostFree (space : Space) (addr : Half) (s : State) : State :=
  s.setMemory space (eraseByte (s.memory space) addr.toNat)

end Sys2Proof.Machine
end

