-- ==== Sys2Proof/Machine/Engine.lean ====
section
/-!
DEFINITION. The engine commands `ECFG`, `PLAY`, `STOP` (spec 41_channel_set.md). Each is one atomic event (R150) and
makes no memory or port access.
-/

namespace Sys2Proof.Machine

/-- The state a legal `ECFG` leaves (R141). -/
def configureEngine (off : BitVec 3) (mode : BitVec 1) (rate : BitVec 8) (s : State) : State :=
  { s with
    offset := off
    lmask := lowerMask off
    umask := upperMask off
    rmode := mode
    trate := rate
    ten := 1
    cfgWritten := true }

/-- `ECFG` (R141); an offset outside 2..6 is ignored, `TEN` included (R142). -/
def execEcfg (off : BitVec 3) (mode : BitVec 1) (rate : BitVec 8) (s : State) :
    Host.Outcome State Fault Refusal :=
  .next (if offsetLegal off then configureEngine off mode rate s else s)

/-- The update inside the bracket of an accepted `PLAY`: the mix pair, all five indices, the count (R144). -/
def installChannels (count : BitVec 8) (chs : Vector CtxIdx 5) (s : State) : State :=
  { s with
    mixm := (s.cfg.mixPair count.toNat).1
    mixs := (s.cfg.mixPair count.toNat).2
    chsel := chs
    cnt := count.setWidth 3 }

/-- `PLAY` is rejected: too many channels (R145), or a visited index that names no context (R146). -/
def playRejected (c : Config) (count : BitVec 8) (chs : Vector CtxIdx 5) : Bool :=
  countTooLarge count || visitsMissing c (listedChannels count chs)

/-- `PLAY` (R144); a rejected one does exactly what `STOP` does (R145, R146). -/
def execPlay (count : BitVec 8) (ch0 ch1 ch2 ch3 ch4 : CtxIdx) (s : State) :
    Host.Outcome State Fault Refusal :=
  .next
    (if playRejected s.cfg count #v[ch0, ch1, ch2, ch3, ch4] then bracket emptyChannels s
     else bracket (installChannels count #v[ch0, ch1, ch2, ch3, ch4]) s)

/-- `STOP` (R147). -/
def execStop (s : State) : Host.Outcome State Fault Refusal := .next (bracket emptyChannels s)

end Sys2Proof.Machine
end

