-- ==== Sys2Proof/Machine/Waveform.lean ====
section
/-!
DEFINITION. The stepping primitive `STEP1` and the waveform commands `WCFG`, `WSTEP` (spec 40_stepping.md).
-/

namespace Sys2Proof.Machine

/-- `STEP1` on the fields of a context (R110): also outside the legal domain of R112 it computes exactly this (R113; log 6).
DESIGN CHOICE (log 26): a context no `WCFG` has written gets `LOC` and `REM` from the values of log 1 and still counts as
unwritten, where the spec gives no result (R42; 93 U17). -/
def stepCtx (x : Ctx) : Ctx :=
  { x with
    rem := stepRem x
    loc := if pastEnd (stepLoc x) x.len then stepLoc x - x.len else stepLoc x }

/-- `STEP1(w)` (R110). -/
def step1 (w : CtxIdx) (s : State) : State := s.setCtx w (stepCtx (s.ctx w))

/-- The five fields `WCFG` writes: position zero (R115). -/
def configuredCtx (buf len step : Half) : Ctx where
  buf := buf
  len := len
  loc := 0
  rem := 0
  step := step
  posWritten := true
  stepWritten := true

/-- `WCFG` (R115); a zero length or an index that names no context is ignored (R116). -/
def execWcfg (w : CtxIdx) (buf len step : Half) (s : State) : Host.Outcome State Fault Refusal :=
  .next
    (if ctxExists s.cfg w && !lenZero len then s.setCtx w (configuredCtx buf len step) else s)

/-- `WSTEP` (R118): `STEP` alone, the position kept; an index that names no context is ignored (R119). -/
def execWstep (w : CtxIdx) (step : Half) (s : State) : Host.Outcome State Fault Refusal :=
  .next
    (if ctxExists s.cfg w then s.setCtx w { s.ctx w with step := step, stepWritten := true } else s)

end Sys2Proof.Machine
end

