-- ==== Sys2Proof/Machine/Tick.lean ====
section
/-!
DEFINITION. The `TICK` event with `FETCH`, `SUM`, `MIX` and `PACK` (spec 42_tick_mix_output.md).
-/

namespace Sys2Proof.Machine

/-- The byte `FETCH(w)` yields (R173): from the memory `RMODE` selects, at the location before stepping. -/
def fetchByte (w : CtxIdx) (s : State) : Byte := s.sampleByte (spaceOf s.rmode) (sampleAddr (s.ctx w))

/-- `FETCH(w)`: one `MemRead` (R173). -/
def fetch (w : CtxIdx) (s : State) : State := s.memRead (spaceOf s.rmode) (sampleAddr (s.ctx w))

/-- One channel of the loop: fetch, add with zero extension (R175), then step (R174). -/
def visit (w : CtxIdx) (sum : Half) (s : State) : Half × State :=
  (sum + (fetchByte w s).setWidth 16, step1 w (fetch w s))

/-- The channel loop of `TICK`, ascending (R170, R174). -/
def visitAll : List CtxIdx → Half → State → Half × State
  | [], sum, s => (sum, s)
  | w :: ws, sum, s => visitAll ws (visit w sum s).1 (visit w sum s).2

/-- `PACK(out)`: read and write `P_LO`, then read and write `P_HI` (R182, R183). -/
def pack (out : Byte) (s : State) : State :=
  let a := s.ioRead .lo
  let b := a.ioWrite .lo (packLo s.lmask s.offset out (s.port .lo))
  let c := b.ioRead .hi
  c.ioWrite .hi (packHi s.umask s.offset out (s.port .hi))

/-- The state a tick with channels leaves: loop, `MIX`, `PACK` (R170). -/
def playTick (s : State) : State :=
  let r := visitAll (visited s) 0 s
  pack (mix r.2.mixm r.2.mixs r.1) r.2

/-- `TICK` (R170): ignored while `TEN = 0` (R171), silent while `CNT = 0` (R172). -/
def execTick (s : State) : Host.Outcome State Fault Refusal :=
  .next (if ticksDisabled s then s else if silent s then s else playTick s)

end Sys2Proof.Machine
end

