-- ==== Sys2Proof/Machine/Dispatch.lean ====
section
/-!
DEFINITION. One arm per instruction.
-/

namespace Sys2Proof.Machine

def exec (i : Instr) (s : State) : Host.Outcome State Fault Refusal :=
  match i with
  | .ecfg off mode rate => Sys2Proof.Machine.execEcfg off mode rate s
  | .play count ch0 ch1 ch2 ch3 ch4 => Sys2Proof.Machine.execPlay count ch0 ch1 ch2 ch3 ch4 s
  | .stop => Sys2Proof.Machine.execStop s
  | .wcfg w buf len step => Sys2Proof.Machine.execWcfg w buf len step s
  | .wstep w step => Sys2Proof.Machine.execWstep w step s
  | .tick => Sys2Proof.Machine.execTick s

end Sys2Proof.Machine
end

