-- ==== Sys2Proof/Machine/Inputs.lean ====
section
/-!
DEFINITION. What one input does: the fetch of the next input, and the performance of it as one atomic event
(spec 00_scope.md R10, 41_channel_set.md R150).
-/

namespace Sys2Proof.Machine

/-- A decoded event is executed; a reserved word, or a tick input at 0, is ignored: no register changes and no access is
made (30_encoding.md R87, R90). -/
def runDecoded (d : Except DecodeError Instr) (s : State) : Host.Outcome State Fault Refusal :=
  match d with
  | .ok i => exec i s
  | .error _ => .next s

/-- Take the next input and perform it. With no input nothing happens and the state stays (log 4). A command and a tick
at one moment are the command and then the tick (60_exceptions.md R215). -/
def takeInput (s : State) : Host.Outcome State Fault Refusal :=
  match s.inputs with
  | [] => .next s
  | .event e :: rest => runDecoded (decode e) { s with inputs := rest }
  | .commandAndTick word :: rest =>
      runDecoded (decode (.command word)) { s with inputs := .event (.tick 1) :: rest }
  | .hostPort p v :: rest => .next (State.setPort { s with inputs := rest } p v)
  | .hostStore space addr v :: rest => .next (hostStore space addr v { s with inputs := rest })
  | .hostFree space addr :: rest => .next (hostFree space addr { s with inputs := rest })
  | .reset :: rest => .next (resetBlock { s with inputs := rest })

/-- The state with an event put before the inputs to come. -/
def presentEvent (e : Event) (s : State) : State := { s with inputs := .event e :: s.inputs }

end Sys2Proof.Machine
end

