-- ==== Sys2Proof/Machine/Step.lean ====
section
/-!
DEFINITION. One step of the machine is one input (spec 00_scope.md R10, 92 D1).
-/

namespace Sys2Proof.Machine

/-- One step: the next input, performed as one atomic event. -/
def step (s : State) : Host.Outcome State Fault Refusal := takeInput s

/-- `s` with the event of an opcode-table row's bits as its next input (log 4, log 20). -/
def State.withFetchWord (s : State) (nbits w : Nat) : State := presentEvent (tableEvent nbits w) s

end Sys2Proof.Machine
end

