-- ==== Sys2Proof/Machine/HostSide.lean ====
section
/-!
DEFINITION. What the host computes outside the block: the step of a duration (spec 40_stepping.md R121, R122) and the
events an assembler line stands for (30_encoding.md R94, R95). The block never reads any of it (00_scope.md R5 c).
-/

namespace Sys2Proof.Machine

/-- The units of a waveform's duration (R121). -/
inductive RateUnit where
  | native
  | hz
  | ms
  | us
  deriving DecidableEq, Repr

/-- The exact `StepOf(unit, d, n, FS)` with one truncating division at the end (R121, R122). -/
def stepOfExact (u : RateUnit) (d n fs : Nat) : Nat :=
  match u with
  | .native => 512
  | .hz => d * n * 512 / fs
  | .ms => 1000 * n * 512 / (d * fs)
  | .us => 1000000 * n * 512 / (d * fs)

/-- The arguments for which `StepOf` is defined: no division by zero (R122). -/
def stepOfDefined (u : RateUnit) (d fs : Nat) : Bool :=
  match u with
  | .native => true
  | .hz => decide (fs ≠ 0)
  | .ms => decide (d ≠ 0) && decide (fs ≠ 0)
  | .us => decide (d ≠ 0) && decide (fs ≠ 0)

/-- `StepOf`, as the 16-bit operand of a command. Outside its domain the host issues no command (R122; log 21). -/
def stepOf (u : RateUnit) (d n fs : Nat) : Option Half :=
  if stepOfDefined u d fs && decide (stepOfExact u d n fs < 2 ^ 16) then
    some (BitVec.ofNat 16 (stepOfExact u d n fs))
  else none

/-- One line of a listing (R94), the pseudo-instructions of R95 among them. -/
inductive AsmLine where
  | ecfg (off : BitVec 3) (mode : BitVec 1) (rate : Byte)
  | play (count : BitVec 8) (ws : List CtxIdx)
  | stop
  | wcfg (w : CtxIdx) (buf len step : Half)
  | wstep (w : CtxIdx) (step : Half)
  | tick
  | tickTimes (n : Nat)
  | wcfgNative (w : CtxIdx) (buf len : Half)
  | wstepNative (w : CtxIdx)
  | wstepHz (w : CtxIdx) (f len fs : Nat)
  deriving DecidableEq, Repr

/-- The instruction of a `play` line: the listed indices fill `ch0`, `ch1`, ... and fields not listed are 0 (R94). -/
def playLine (count : BitVec 8) (ws : List CtxIdx) : Instr :=
  .play count (ws.getD 0 0) (ws.getD 1 0) (ws.getD 2 0) (ws.getD 3 0) (ws.getD 4 0)

/-- The events a line stands for, in order; `none` where the syntax of R94 admits no such line, or a
`wstep.hz` line has no step (R122; log 22). -/
def assemble (line : AsmLine) : Option (List Event) :=
  match line with
  | .ecfg off mode rate =>
      if 2 ≤ off.toNat ∧ off.toNat ≤ 6 then some [encode (.ecfg off mode rate)] else none
  | .play count ws => if ws.length ≤ 5 then some [encode (playLine count ws)] else none
  | .stop => some [encode .stop]
  | .wcfg w buf len step => some [encode (.wcfg w buf len step)]
  | .wstep w step => some [encode (.wstep w step)]
  | .tick => some [encode .tick]
  | .tickTimes n => some (List.replicate n (encode .tick))
  | .wcfgNative w buf len => some [encode (.wcfg w buf len 512)]
  | .wstepNative w => some [encode (.wstep w 512)]
  | .wstepHz w f len fs => (stepOf .hz f len fs).map (fun step => [encode (.wstep w step)])

/-- A context's name in a listing (R94). -/
def ctxName (w : CtxIdx) : String := "w" ++ toString w.toNat

/-- The text of a line (R94, R95), numbers in decimal. -/
def listing (line : AsmLine) : String :=
  match line with
  | .ecfg off mode rate =>
      "ecfg off=" ++ toString off.toNat ++ ", mode=" ++ (if mode = 0 then "ram" else "rom") ++
        ", rate=" ++ toString rate.toNat
  | .play count ws => ws.foldl (fun text w => text ++ ", " ++ ctxName w) ("play " ++ toString count.toNat)
  | .stop => "stop"
  | .wcfg w buf len step =>
      "wcfg " ++ ctxName w ++ ", buf=" ++ toString buf.toNat ++ ", len=" ++ toString len.toNat ++
        ", step=" ++ toString step.toNat
  | .wstep w step => "wstep " ++ ctxName w ++ ", step=" ++ toString step.toNat
  | .tick => "tick"
  | .tickTimes n => "tick x" ++ toString n
  | .wcfgNative w buf len =>
      "wcfg.native " ++ ctxName w ++ ", buf=" ++ toString buf.toNat ++ ", len=" ++ toString len.toNat
  | .wstepNative w => "wstep.native " ++ ctxName w
  | .wstepHz w f len fs =>
      "wstep.hz " ++ ctxName w ++ ", f=" ++ toString f ++ ", len=" ++ toString len ++ ", fs=" ++ toString fs

end Sys2Proof.Machine
end

