-- ==== Sys2Proof/Safety.lean ====
section
/-!
DEFINITION. What counts as a safe state, event and run: the invariants of spec 10_state.md R39, and the legal domain
outside of which the spec's words are "contract violation" (R12; 40_stepping.md R112; 93 U1, U3 to U7).
-/

namespace Sys2Proof.Machine

/-- (I-b): while channels are listed, the mix pair is the count's and every listed index names a context (R39, R151). -/
def State.channelsConsistent (s : State) : Prop :=
  0 < s.cnt.toNat →
    (s.mixm, s.mixs) = s.cfg.mixPair s.cnt.toNat ∧ ∀ w ∈ visited s, w.toNat < s.cfg.nw

/-- (I-e): once written, the offset is in 2..6 and the masks are those of the offset (R39, R31). -/
def State.windowConsistent (s : State) : Prop :=
  s.cfgWritten = true →
    2 ≤ s.offset.toNat ∧ s.offset.toNat ≤ 6 ∧
      s.lmask.toNat = 2 ^ s.offset.toNat - 1 ∧ s.umask.toNat = 0xFF - s.lmask.toNat

/-- (I-d): every written length is at least 1, and a written position has a written step (R39, R23). -/
def Ctx.consistent (x : Ctx) : Prop :=
  x.posWritten = true → 1 ≤ x.len.toNat ∧ x.stepWritten = true

/-- The invariants of R39 that rest on no premise about the host, with the canonical form of the memories. (I-c), `REM`
below 512, is in the type of the register. -/
structure State.Inv (s : State) : Prop where
  /-- (I-a). -/
  cnt_le : s.cnt.toNat ≤ 5
  /-- (I-b). -/
  channels : s.channelsConsistent
  /-- (I-d). -/
  lengths : ∀ w, (s.ctx w).consistent
  /-- (I-e). -/
  window : s.windowConsistent
  /-- A slot at or above `NW` is never written: it is no hardware (R21; log 11). -/
  absent : ∀ w : CtxIdx, s.cfg.nw ≤ w.toNat → s.ctx w = Ctx.reset
  /-- The canonical form of `RAM`. -/
  ram_wf : Memory.wf s.ram
  /-- The canonical form of `ROM`. -/
  rom_wf : Memory.wf s.rom

/-- `Q = 512 * LOC + REM`, the position in units of 1/512 sample (40_stepping.md R112). -/
def Ctx.position (x : Ctx) : Nat := 512 * x.loc.toNat + x.rem.toNat

/-- A tick is legal for a context: L1 to L4 of 40_stepping.md R112. -/
structure Ctx.TickLegal (x : Ctx) : Prop where
  /-- (L1) `LOC < LEN`. -/
  loc_lt : x.loc.toNat < x.len.toNat
  /-- (L2) `STEP <= 512 * LEN`. -/
  step_le : x.step.toNat ≤ 512 * x.len.toNat
  /-- (L3) `REM + STEP < 2^16`. -/
  sum_lt : x.rem.toNat + x.step.toNat < 2 ^ 16
  /-- (L4) `LOC + ((REM + STEP) >> 9) < 2^16`. -/
  adv_lt : x.loc.toNat + (x.rem.toNat + x.step.toNat) / 512 < 2 ^ 16

/-- The host's static duties for a context it lists (70 R246, 20_memory.md R62, 70 R242): they mention no moving state. -/
structure Ctx.HostBounds (x : Ctx) : Prop where
  /-- The position and the step have been written (U1). -/
  written : x.posWritten = true ∧ x.stepWritten = true
  /-- `STEP <= 512 * LEN`. -/
  step_le : x.step.toNat ≤ 512 * x.len.toNat
  /-- `STEP <= 65024`. -/
  step_small : x.step.toNat ≤ 65024
  /-- `LEN <= 65408`. -/
  len_small : x.len.toNat ≤ 65408
  /-- `BUF + LEN <= 2^16` (R62, U6). -/
  inside : x.buf.toNat + x.len.toNat ≤ 2 ^ 16

/-- The context that channel `i` of a list finds when it is visited: `STEP1` has been applied to it once for each earlier
listing (42_tick_mix_output.md R174). -/
def foundCtx (s : State) (ws : List CtxIdx) (i : Nat) : Ctx :=
  stepCtx^[(ws.take i).count (ws.getD i 0)] (s.ctx (ws.getD i 0))

/-- The storage of a buffer is provided in the memory `RMODE` selects (70 R244; 93 U7, U15). -/
def State.bufferProvided (s : State) (x : Ctx) : Prop :=
  ∀ k : Nat, k < x.len.toNat → (readByte (s.memory (spaceOf s.rmode)) (x.buf.toNat + k)).isSome = true

/-- A tick of this state is inside the spec's defined domain (70 R242, R243): ignored, silent, or over a written engine
configuration and listed contexts that keep the host's bounds with a location inside a provided buffer. -/
def State.TickSafe (s : State) : Prop :=
  s.ten = 0 ∨ s.cnt = 0 ∨
    (s.cfgWritten = true ∧
      ∀ w ∈ visited s, (s.ctx w).HostBounds ∧ (s.ctx w).loc.toNat < (s.ctx w).len.toNat ∧
        s.bufferProvided (s.ctx w))

/-- (I-f): every written context's location is an index into its buffer (R39, R24). It rests on the host's bounds. -/
def State.LocationsValid (s : State) : Prop :=
  ∀ w, (s.ctx w).posWritten = true → (s.ctx w).loc.toNat < (s.ctx w).len.toNat

/-! ### The terms frames are stated in: `s` is the state before, `t` the state after -/

/-- Every byte of both sample memories reads as before. -/
def SameMemory (s t : State) : Prop :=
  ∀ space a, readByte (t.memory space) a = readByte (s.memory space) a

/-- No access was made, no port changed, no byte of memory changed, no free value was drawn. -/
def NoAccess (s t : State) : Prop :=
  t.trace = s.trace ∧ t.draws = s.draws ∧ t.pLo = s.pLo ∧ t.pHi = s.pHi ∧ SameMemory s t

/-- Every waveform context is as before. -/
def SameContexts (s t : State) : Prop := ∀ w, t.ctx w = s.ctx w

/-- `OFFSET`, `LMASK`, `UMASK`, `RMODE`, `TRATE` are as before. -/
def SameConfiguration (s t : State) : Prop :=
  t.offset = s.offset ∧ t.lmask = s.lmask ∧ t.umask = s.umask ∧ t.rmode = s.rmode ∧ t.trate = s.trate ∧
    t.cfgWritten = s.cfgWritten

/-- `CNT` and `CHSEL` are as before. -/
def SameChannels (s t : State) : Prop := t.cnt = s.cnt ∧ t.chsel = s.chsel

/-- `MIXM` and `MIXS` are as before. -/
def SameMixPair (s t : State) : Prop := t.mixm = s.mixm ∧ t.mixs = s.mixs

/-- The parameters and the inputs to come are as before. -/
def SameSurroundings (s t : State) : Prop := t.cfg = s.cfg ∧ t.inputs = s.inputs

/-- The instruction the next step executes, if the next input holds one. -/
def nextInstr (s : State) : Option Instr :=
  match s.inputs with
  | .event e :: _ => (decode e).toOption
  | .commandAndTick word :: _ => (decodeCommand word).toOption
  | _ => none

/-- Two silent states that differ at most in the channel indices and the mix pair (41_channel_set.md R148). -/
def SilentTwins (s t : State) : Prop :=
  s.cnt = 0 ∧ t = { s with chsel := t.chsel, mixm := t.mixm, mixs := t.mixs }

end Sys2Proof.Machine
end

