-- ==== Sys2Proof/Certificates/Slice0/Obligations.lean ====
section
/-!
DEFINITION. The statements for the provers. Each docstring names the rule or the section of the spec it formalises.
-/

open Sys2Proof Sys2Proof.Machine

/-! ### Reset -/

/-- R240: what reset leaves. The registers the spec calls unwritten are marked so; the values the model names for them
(log 1) are not part of the statement. -/
def Obligations.ResetLeavesTheSilentState : Prop :=
  State.reset.ten = 0 ∧ State.reset.cnt = 0 ∧ (∀ i : Fin 5, State.reset.chsel[i] = 0) ∧
    State.reset.mixm = 1 ∧ State.reset.mixs = 0 ∧ State.reset.cfgWritten = false ∧
    (∀ w, (State.reset.ctx w).posWritten = false ∧ (State.reset.ctx w).stepWritten = false) ∧
    State.reset.trace = []

/-- R241 says that the reset event puts the registers in the state of R240 whatever they held: the clauses on `TEN`, `CNT`,
`CHSEL`, the mix pair and the marks. The other clauses are the model's, not the spec's: R240 leaves `OFFSET`, the masks,
`RMODE`, `TRATE` and every context unwritten, and that they equal those of `State.reset` rests on the values log 1 names
(DESIGN CHOICE); that the event is an input of a list rests on log 4 (DESIGN CHOICE); that ports, memories, trace and
parameters stay rests on log 14 (DEDUCED). -/
def Obligations.ResetEventRestoresTheResetRegisters : Prop :=
  ∀ (s : State) (rest : List Input), s.inputs = .reset :: rest →
    ∃ t, step s = .next t ∧ t.inputs = rest ∧ t.cfg = s.cfg ∧
      t.ten = 0 ∧ t.cnt = 0 ∧ (∀ i : Fin 5, t.chsel[i] = 0) ∧ t.mixm = 1 ∧ t.mixs = 0 ∧
      t.cfgWritten = false ∧ SameConfiguration State.reset t ∧
      (∀ w, t.ctx w = State.reset.ctx w) ∧ NoAccess s t

/-- 10_state.md section 5 (the invariants hold at reset); the slots at or above `NW` (log 11) and the list form of a memory
(log 2) are the model's own. -/
def Obligations.ResetSatisfiesTheInvariant : Prop := State.reset.Inv ∧ State.reset.LocationsValid

/-! ### Decoding and encoding -/

/-- 95_test_vectors.md section 5 and the worked examples of the rules: words written out from the formats. -/
def Obligations.SpecWordsDecode : Prop :=
  decode (.command 0x1000000000000704) = .ok (.ecfg 4 0 7) ∧
  decode (.command 0x1000000000000312) = .ok (.ecfg 2 1 3) ∧
  decode (.command 0x2003000000000088) = .ok (.play 3 0 1 2 0 0) ∧
  decode (.command 0x2006000000004688) = .ok (.play 6 0 1 2 3 4) ∧
  decode (.command 0x3000000000000000) = .ok .stop ∧
  decode (.command 0x4200010000640200) = .ok (.wcfg 2 0x0100 100 512) ∧
  decode (.command 0x5100000000000300) = .ok (.wstep 1 768) ∧
  decode (.tick 1) = .ok .tick

/-- 30_encoding.md section 2: no bit of an encoding is dropped, for every operand of every instruction. -/
def Obligations.DecodeOfEncodeIsTheInstruction : Prop :=
  ∀ i : Instr, decode (encode i) = .ok i

/-- 30_encoding.md section 4: an event that decodes is the encoding of its instruction, so that each instruction has one
encoding. -/
def Obligations.EncodeOfDecodeIsTheEvent : Prop :=
  ∀ (e : Event) (i : Instr), decode e = .ok i → encode i = e

/-- R89: a word selects a row when `c & mask = match`; the rows are disjoint; the tick input at 1 is `TICK`; the masks are
the complements of the field bits. -/
def Obligations.WordsSelectRowsByMaskAndMatch : Prop :=
  (∀ c : CmdWord,
    ((∃ off mode rate, decode (.command c) = .ok (.ecfg off mode rate)) ↔
      c &&& 0xFFFFFFFFFFFF00E8 = 0x1000000000000000) ∧
    ((∃ count ch0 ch1 ch2 ch3 ch4, decode (.command c) = .ok (.play count ch0 ch1 ch2 ch3 ch4)) ↔
      c &&& 0xFF00FFFFFFFF8000 = 0x2000000000000000) ∧
    (decode (.command c) = .ok .stop ↔ c &&& 0xFFFFFFFFFFFFFFFF = 0x3000000000000000) ∧
    ((∃ w buf len step, decode (.command c) = .ok (.wcfg w buf len step)) ↔
      c &&& 0xF8FF000000000000 = 0x4000000000000000) ∧
    ((∃ w step, decode (.command c) = .ok (.wstep w step)) ↔
      c &&& 0xF8FFFFFFFFFF0000 = 0x5000000000000000) ∧
    decode (.command c) ≠ .ok .tick) ∧
  (∀ line : BitVec 1, decode (.tick line) = .ok .tick ↔ line &&& 1 = 1) ∧
  ~~~(0xFFFFFFFFFFFF00E8 : CmdWord) = 0x000000000000FF17 ∧
  ~~~(0xFF00FFFFFFFF8000 : CmdWord) = 0x00FF000000007FFF ∧
  ~~~(0xF8FF000000000000 : CmdWord) = 0x0700FFFFFFFFFFFF ∧
  ~~~(0xF8FFFFFFFFFF0000 : CmdWord) = 0x070000000000FFFF

/-- R90: a word that matches no row of R89 is ignored: no register changes, `TEN` included, and no access is made.
That the step takes the input from a list is the model's own (log 4). -/
def Obligations.ReservedWordIsIgnored : Prop :=
  ∀ (s : State) (c : CmdWord) (rest : List Input), s.inputs = .event (.command c) :: rest →
    c &&& 0xFFFFFFFFFFFF00E8 ≠ 0x1000000000000000 → c &&& 0xFF00FFFFFFFF8000 ≠ 0x2000000000000000 →
    c &&& 0xFFFFFFFFFFFFFFFF ≠ 0x3000000000000000 → c &&& 0xF8FF000000000000 ≠ 0x4000000000000000 →
    c &&& 0xF8FFFFFFFFFF0000 ≠ 0x5000000000000000 →
      step s = .next { s with inputs := rest }

/-! ### Steps -/

/-- 00_scope.md section 5, 41_channel_set.md section 4: a step takes the next input and executes the instruction its event
decodes to; what the step adds is the removal of the input (the list of inputs is the model's own, log 4, DESIGN CHOICE).
Second clause, 60_exceptions.md section 2: of a command and a tick at one moment the step executes the command and leaves the
tick as the next input; that one input stands for the moment, and that nothing comes between the two, is the model's own
(log 23, DESIGN CHOICE). -/
def Obligations.StepExecutesTheDecodedInstruction : Prop :=
  ∀ (s : State) (rest : List Input) (i : Instr),
    (∀ e : Event, s.inputs = .event e :: rest → decode e = .ok i →
      step s = exec i { s with inputs := rest }) ∧
    (∀ c : CmdWord, s.inputs = .commandAndTick c :: rest → decode (.command c) = .ok i →
      step s = exec i { s with inputs := .event (.tick 1) :: rest })

/-- 60_exceptions.md section 2 (a command and a tick raised at the same moment: "the command is performed first, then the
tick, which therefore sees the state the command left"); the input that stands for the moment, and the tick left as
the next of the list, are the model's own (logs 4, 23, DESIGN CHOICE). -/
def Obligations.CommandRunsBeforeASimultaneousTick : Prop :=
  ∀ (s : State) (c : CmdWord) (rest : List Input) (i : Instr),
    s.inputs = .commandAndTick c :: rest → decode (.command c) = .ok i →
      ∃ t, exec i { s with inputs := rest } = .next t ∧
        step s = .next { t with inputs := .event (.tick 1) :: rest } ∧
        step { t with inputs := .event (.tick 1) :: rest } = exec .tick t

/-- 00_scope.md section 5 ("The block never halts"), 42_tick_mix_output.md section 5: every event ends in a next state.
That an event which reads an unwritten register (R42, 93 U1), or for which 93 advises or allows a refusal, ends in one too is
the model's choice (logs 1, 5, 6, 7, 8). -/
def Obligations.EveryStepAnswersANextState : Prop := ∀ s : State, ∃ t, step s = .next t

/-- 10_state.md section 5: a step keeps the invariants I-a, I-b, I-d, I-e of the block, the contexts beyond `NW` absent,
and both memories in canonical form. That a tick marks no context as written, so that I-d asks nothing of one no `WCFG` has
written, is the model's choice (log 26); so are the slots at or above `NW` (log 11) and the list form of a memory (log 2). -/
def Obligations.StepKeepsTheInvariant : Prop :=
  ∀ s t : State, s.Inv → step s = .next t → t.Inv

/-- 10_state.md section 5 (I-f), 70 section 3: a step keeps every written location inside its buffer, as long as a tick
that is performed visits only contexts that keep the host's bounds. -/
def Obligations.StepKeepsLocationsInsideBuffers : Prop :=
  ∀ s t : State, s.LocationsValid →
    (nextInstr s = some .tick → s.ten = 1 → s.cnt ≠ 0 → ∀ w ∈ visited s, (s.ctx w).HostBounds) →
    step s = .next t → t.LocationsValid

/-! ### ECFG -/

/-- R141: what a legal `ECFG` writes, and that it touches nothing else and makes no access. -/
def Obligations.EcfgConfiguresTheEngine : Prop :=
  (∀ (off : BitVec 3) (mode : BitVec 1) (rate : BitVec 8) (s : State),
    2 ≤ off.toNat → off.toNat ≤ 6 →
      ∃ t, exec (.ecfg off mode rate) s = .next t ∧
        t.offset = off ∧ t.lmask.toNat = 2 ^ off.toNat - 1 ∧ t.umask.toNat = (0xFF * 2 ^ off.toNat) % 256 ∧
        t.rmode = mode ∧ t.trate = rate ∧ t.ten = 1 ∧ t.cfgWritten = true ∧
        SameChannels s t ∧ SameMixPair s t ∧ SameContexts s t ∧ NoAccess s t ∧ SameSurroundings s t) ∧
  decode (.command 0x1000000000000704) = .ok (.ecfg 4 0 7)

/-- R142: an offset of 0, 1 or 7 makes `ECFG` ignored: no register changes, `TEN` included. -/
def Obligations.EcfgWithAnIllegalOffsetIsIgnored : Prop :=
  ∀ (off : BitVec 3) (mode : BitVec 1) (rate : BitVec 8) (s : State),
    (off = 0 ∨ off = 1 ∨ off = 7) → exec (.ecfg off mode rate) s = .next s

/-! ### PLAY and STOP -/

/-- R144: an accepted `PLAY` installs the mix pair of the count, all five indices whatever the count, and the count; `TEN`
is 1 whatever it was; the contexts a tick visits are the first `count` indices, so that entries at or above `count` are
never read; positions, ports and memories are untouched. -/
def Obligations.PlayInstallsTheChannelList : Prop :=
  (∀ (count : BitVec 8) (ch0 ch1 ch2 ch3 ch4 : CtxIdx) (s : State),
    count.toNat ≤ 5 → (∀ w ∈ [ch0, ch1, ch2, ch3, ch4].take count.toNat, w.toNat < s.cfg.nw) →
      ∃ t, exec (.play count ch0 ch1 ch2 ch3 ch4) s = .next t ∧
        s.cfg.mixTable[count.toNat]? = some (t.mixm, t.mixs) ∧
        t.chsel = #v[ch0, ch1, ch2, ch3, ch4] ∧ t.cnt.toNat = count.toNat ∧ t.ten = 1 ∧
        visited t = [ch0, ch1, ch2, ch3, ch4].take count.toNat ∧
        SameConfiguration s t ∧ SameContexts s t ∧ NoAccess s t ∧ SameSurroundings s t) ∧
  decode (.command 0x2003000000000088) = .ok (.play 3 0 1 2 0 0) ∧
  Config.default.mixTable[3]? = some (85, 8)

/-- R145: a count above 5 does exactly what `STOP` does: the indices are not copied, the mix pair is not written, and no
port write is made. -/
def Obligations.PlayWithTooManyChannelsActsAsStop : Prop :=
  (∀ (count : BitVec 8) (ch0 ch1 ch2 ch3 ch4 : CtxIdx) (s : State), 5 < count.toNat →
    exec (.play count ch0 ch1 ch2 ch3 ch4) s = exec .stop s ∧
      ∃ t, exec (.play count ch0 ch1 ch2 ch3 ch4) s = .next t ∧ t.cnt = 0 ∧
        (∀ i : Fin 5, t.chsel[i] = 0) ∧ t.ten = 1 ∧ SameMixPair s t ∧ NoAccess s t ∧ exec .tick t = .next t) ∧
  decode (.command 0x2006000000004688) = .ok (.play 6 0 1 2 3 4)

/-- R146: a visited index at or above `NW` makes `PLAY` act as `STOP`; one in a field at or above the count is copied like
any other and the contexts visited are the same; with `NW = 8` no index is out of range. -/
def Obligations.PlayOfAMissingContextActsAsStop : Prop :=
  (∀ (count : BitVec 8) (ch0 ch1 ch2 ch3 ch4 : CtxIdx) (s : State), count.toNat ≤ 5 →
    (∃ w ∈ [ch0, ch1, ch2, ch3, ch4].take count.toNat, s.cfg.nw ≤ w.toNat) →
      exec (.play count ch0 ch1 ch2 ch3 ch4) s = exec .stop s) ∧
  (∀ (count : BitVec 8) (ch0 ch1 ch2 ch3 ch4 : CtxIdx) (s : State), count.toNat ≤ 5 →
    (∀ w ∈ [ch0, ch1, ch2, ch3, ch4].take count.toNat, w.toNat < s.cfg.nw) →
      ∃ t, exec (.play count ch0 ch1 ch2 ch3 ch4) s = .next t ∧ t.chsel = #v[ch0, ch1, ch2, ch3, ch4] ∧
        visited t = [ch0, ch1, ch2, ch3, ch4].take count.toNat) ∧
  (∀ (c : Config) (w : CtxIdx), c.nw = 8 → w.toNat < c.nw)

/-- R147: `STOP` empties the channel list, leaves `TEN` at 1 and the mix pair as it was, and touches no context, no port
and no memory. -/
def Obligations.StopEmptiesTheChannelList : Prop :=
  (∀ s : State, ∃ t, exec .stop s = .next t ∧
    t.cnt = 0 ∧ (∀ i : Fin 5, t.chsel[i] = 0) ∧ t.ten = 1 ∧ SameMixPair s t ∧
    SameConfiguration s t ∧ SameContexts s t ∧ NoAccess s t ∧ SameSurroundings s t) ∧
  decode (.command 0x3000000000000000) = .ok .stop

/-- 41_channel_set.md section 3: `STOP; STOP` leaves the state `STOP` leaves. -/
def Obligations.StopIsIdempotent : Prop :=
  ∀ s t : State, exec .stop s = .next t → exec .stop t = .next t

/-- 41_channel_set.md section 3: `PLAY 0` and `STOP` leave states that no later event can tell apart: they differ at most
in the indices and the mix pair while silent, and every step leaves them so or makes them equal. -/
def Obligations.PlayZeroAndStopAreIndistinguishable : Prop :=
  (∀ (ch0 ch1 ch2 ch3 ch4 : CtxIdx) (s a b : State), exec .stop s = .next a →
    exec (.play 0 ch0 ch1 ch2 ch3 ch4) s = .next b → SilentTwins a b) ∧
  (∀ s t s' : State, SilentTwins s t → step s = .next s' →
    ∃ t', step t = .next t' ∧ (SilentTwins s' t' ∨ t' = s'))

/-! ### WCFG and WSTEP -/

/-- R115: what an accepted `WCFG` writes, and that it touches no other context, no engine register, no port and no
memory. -/
def Obligations.WcfgConfiguresTheContext : Prop :=
  (∀ (w : CtxIdx) (buf len stp : Half) (s : State), w.toNat < s.cfg.nw → 1 ≤ len.toNat →
    ∃ t, exec (.wcfg w buf len stp) s = .next t ∧
      (t.ctx w).buf = buf ∧ (t.ctx w).len = len ∧ (t.ctx w).step = stp ∧ (t.ctx w).loc = 0 ∧
      (t.ctx w).rem = 0 ∧ (t.ctx w).posWritten = true ∧ (t.ctx w).stepWritten = true ∧
      (∀ v, v ≠ w → t.ctx v = s.ctx v) ∧ t.ten = s.ten ∧ SameChannels s t ∧ SameMixPair s t ∧
      SameConfiguration s t ∧ NoAccess s t ∧ SameSurroundings s t) ∧
  decode (.command 0x4200010000640200) = .ok (.wcfg 2 0x0100 100 512)

/-- R116: a zero length or an index at or above `NW` makes `WCFG` ignored; it makes no other check: whatever the address,
the sum of address and length, and the step, the fields are written. -/
def Obligations.WcfgChecksOnlyLengthAndIndex : Prop :=
  (∀ (w : CtxIdx) (buf len stp : Half) (s : State), (len = 0 ∨ s.cfg.nw ≤ w.toNat) →
    exec (.wcfg w buf len stp) s = .next s) ∧
  (∀ (w : CtxIdx) (buf len stp : Half) (s : State), len ≠ 0 → w.toNat < s.cfg.nw →
    ∃ t, exec (.wcfg w buf len stp) s = .next t ∧
      ((t.ctx w).buf, (t.ctx w).len, (t.ctx w).step) = (buf, len, stp))

/-- R118: `WSTEP` writes the step alone; the position, the buffer and the length stay. -/
def Obligations.WstepKeepsThePosition : Prop :=
  (∀ (w : CtxIdx) (stp : Half) (s : State), w.toNat < s.cfg.nw →
    ∃ t, exec (.wstep w stp) s = .next t ∧
      (t.ctx w).step = stp ∧ (t.ctx w).stepWritten = true ∧
      (t.ctx w).buf = (s.ctx w).buf ∧ (t.ctx w).len = (s.ctx w).len ∧ (t.ctx w).loc = (s.ctx w).loc ∧
      (t.ctx w).rem = (s.ctx w).rem ∧ (t.ctx w).posWritten = (s.ctx w).posWritten ∧
      (∀ v, v ≠ w → t.ctx v = s.ctx v) ∧ t.ten = s.ten ∧ SameChannels s t ∧ SameMixPair s t ∧
      SameConfiguration s t ∧ NoAccess s t ∧ SameSurroundings s t) ∧
  decode (.command 0x5100000000000300) = .ok (.wstep 1 768)

/-- R119: an index at or above `NW` makes `WSTEP` ignored; every step is accepted, and a tick after it advances by that
step as R110 says, inside the bounds of R112 or not. That a tick on a context only `WSTEP` has written computes from
a `REM` at all is the model's choice (log 1). -/
def Obligations.WstepChecksOnlyTheIndex : Prop :=
  (∀ (w : CtxIdx) (stp : Half) (s : State), s.cfg.nw ≤ w.toNat → exec (.wstep w stp) s = .next s) ∧
  (∀ (w : CtxIdx) (stp : Half) (s : State), w.toNat < s.cfg.nw →
    ∃ t, exec (.wstep w stp) s = .next t ∧ (t.ctx w).step = stp ∧
      (stepCtx (t.ctx w)).rem.toNat = ((s.ctx w).rem.toNat + stp.toNat) % 65536 % 512)

/-! ### The stepping primitive -/

/-- R110: the fields `STEP1` computes, in natural numbers: both adders drop their carry out, one conditional subtraction;
for every context, inside the legal domain or not. -/
def Obligations.StepOneComputesTheRule : Prop :=
  ∀ (w : CtxIdx) (s : State),
    let x := s.ctx w
    let t := (x.rem.toNat + x.step.toNat) % 65536
    let l := (x.loc.toNat + t / 512) % 65536
    let y := (step1 w s).ctx w
    y.rem.toNat = t % 512 ∧
      y.loc.toNat = (if x.len.toNat ≤ l then l - x.len.toNat else l) ∧
      y.buf = x.buf ∧ y.len = x.len ∧ y.step = x.step ∧
      (∀ v, v ≠ w → (step1 w s).ctx v = s.ctx v)

/-- 40_stepping.md section 1, the law of the legal domain: under L1 to L4 the position advances by the step modulo
`512 * LEN`, and the location stays an index of the buffer. -/
def Obligations.LegalStepIsModularAdvance : Prop :=
  ∀ x : Ctx, x.TickLegal →
    (stepCtx x).position = (x.position + x.step.toNat) % (512 * x.len.toNat) ∧
    (stepCtx x).loc.toNat < (stepCtx x).len.toNat ∧
    (stepCtx x).rem.toNat = (x.rem.toNat + x.step.toNat) % 512 ∧
    (stepCtx x).loc.toNat = (x.loc.toNat + (x.rem.toNat + x.step.toNat) / 512) % x.len.toNat

/-- 40_stepping.md section 1, by induction over `n` legal ticks, from the host's static bounds. -/
def Obligations.ManyStepsAreModularAdvance : Prop :=
  ∀ (n : Nat) (x : Ctx), x.HostBounds → x.loc.toNat < x.len.toNat →
    (stepCtx^[n] x).position = (x.position + n * x.step.toNat) % (512 * x.len.toNat) ∧
    (stepCtx^[n] x).loc.toNat < x.len.toNat

/-! ### TICK -/

/-- R171: a tick while `TEN = 0` changes nothing, makes no access and is not remembered (nothing is said of a tick while
`TEN = 1`: the silent one also changes nothing, R172); `TEN = 0` holds only from reset until the first (accepted) `ECFG`,
`PLAY` or `STOP`. -/
def Obligations.DisabledTickIsIgnoredUntilTheFirstEnable : Prop :=
  (∀ s : State, s.ten = 0 → exec .tick s = .next s) ∧
  State.reset.ten = 0 ∧
  (∀ s t : State, s.inputs.head? ≠ some .reset → s.ten = 1 → step s = .next t → t.ten = 1) ∧
  (∀ s : State,
    (∀ off mode rate, 2 ≤ off.toNat → off.toNat ≤ 6 →
      ∃ t, exec (.ecfg off mode rate) s = .next t ∧ t.ten = 1) ∧
    (∀ count ch0 ch1 ch2 ch3 ch4, ∃ t, exec (.play count ch0 ch1 ch2 ch3 ch4) s = .next t ∧ t.ten = 1) ∧
    (∃ t, exec .stop s = .next t ∧ t.ten = 1))

/-- R172: a tick in the silent state changes nothing and accesses nothing, whatever the other registers hold. -/
def Obligations.SilentTickDoesNothing : Prop :=
  ∀ s : State, s.cnt = 0 → exec .tick s = .next s

/-- 20_memory.md section 2, 42_tick_mix_output.md sections 2 to 4: the access trace of a tick, what it reads, and what it
writes to the ports. Of a tick that reads unwritten registers the spec gives no result (R42): that it has this one too, on the
values of log 1 (DESIGN CHOICE) and with the shifts of an offset outside 2..6 (log 25, DESIGN CHOICE), is the model's choice.
A byte nobody provides is any value (93 U7; log 2). The bound on `CNT` is the invariant I-a. -/
def Obligations.TickReadsMixesAndWritesThePorts : Prop :=
  ∀ s : State, s.ten = 1 → s.cnt ≠ 0 → s.cnt.toNat ≤ 5 →
    let ws := s.chsel.toList.take s.cnt.toNat
    let space := if s.rmode = 0 then Space.ram else Space.rom
    let addr := fun i => (foundCtx s ws i).buf + (foundCtx s ws i).loc
    ∃ (t : State) (samples : List Byte),
      let out : Byte :=
        BitVec.ofNat 8 ((samples.map BitVec.toNat).sum * s.mixm.toNat / 2 ^ s.mixs.toNat)
      exec .tick s = .next t ∧ samples.length = s.cnt.toNat ∧
      (∀ i < s.cnt.toNat, ∀ v, readByte (s.memory space) (addr i).toNat = some v → samples.getD i 0 = v) ∧
      t.pLo = (s.pLo &&& s.lmask) ||| (out <<< s.offset.toNat) ∧
      t.pHi = (s.pHi &&& s.umask) ||| (out >>> (8 - s.offset.toNat)) ∧
      t.trace = s.trace ++
        (List.range s.cnt.toNat).map (fun i => Access.memRead space (addr i) (samples.getD i 0)) ++
        [.ioRead .lo s.pLo, .ioWrite .lo t.pLo, .ioRead .hi s.pHi, .ioWrite .hi t.pHi]

/-- 42_tick_mix_output.md section 1, the frame of a tick with channels: each context is stepped once per listing (so that
an unlisted one is as before), and nothing else is written but the two ports and what is observed. That a context no `WCFG`
has written is stepped too, and stays marked unwritten, is the model's choice (logs 1, 26). -/
def Obligations.TickStepsTheListedContextsAlone : Prop :=
  ∀ s : State, s.ten = 1 → s.cnt ≠ 0 →
    ∃ t, exec .tick s = .next t ∧
      (∀ w, t.ctx w = stepCtx^[(s.chsel.toList.take s.cnt.toNat).count w] (s.ctx w)) ∧
      t.ten = s.ten ∧ SameChannels s t ∧ SameMixPair s t ∧ SameConfiguration s t ∧ SameMemory s t ∧
      SameSurroundings s t

/-- 42_tick_mix_output.md section 4: after a tick with channels and a written window, line `OFFSET + b` carries bit `b` of
the output, and every other line is as before. The spec says so when all registers are written; that it also holds for a tick
that visits a context no `WCFG` has written, to which R42 gives no result, is the model's choice (log 1, DESIGN CHOICE). -/
def Obligations.TickDrivesTheWindowAndKeepsTheOtherLines : Prop :=
  ∀ s : State, s.ten = 1 → s.cnt ≠ 0 → s.cfgWritten = true → s.windowConsistent →
    let out : Byte := mix s.mixm s.mixs (visitAll (visited s) 0 s).1
    ∃ t, exec .tick s = .next t ∧
      (t.pHi ++ t.pLo : BitVec 16) =
        ((s.pHi ++ s.pLo : BitVec 16) &&& ~~~((0xFF : BitVec 16) <<< s.offset.toNat)) |||
          (out.setWidth 16 <<< s.offset.toNat) ∧
      (∀ b < 8, (t.pHi ++ t.pLo : BitVec 16).getLsbD (s.offset.toNat + b) = out.getLsbD b) ∧
      (∀ n < 16, (n < s.offset.toNat ∨ s.offset.toNat + 8 ≤ n) →
        (t.pHi ++ t.pLo : BitVec 16).getLsbD n = (s.pHi ++ s.pLo : BitVec 16).getLsbD n)

/-- 70 section 3, window bits belong to the block: two states that differ only in port bits the masks do not keep are led by
a tick to the same ports and the same contexts. That a tick on unwritten registers has a result (R42 gives none) is the
model's choice (logs 1, 25). -/
def Obligations.WindowBitsDoNotReachTheOutput : Prop :=
  ∀ (s t : State) (lo hi : Byte), s.ten = 1 → s.cnt ≠ 0 →
    lo &&& s.lmask = s.pLo &&& s.lmask → hi &&& s.umask = s.pHi &&& s.umask → exec .tick s = .next t →
      ∃ u, exec .tick { s with pLo := lo, pHi := hi } = .next u ∧
        u.pLo = t.pLo ∧ u.pHi = t.pHi ∧ SameContexts t u ∧ u.draws = t.draws

/-- 70 section 2 (after a boot that follows the rules): a tick inside the defined domain finds every context legal, reads
inside its provided buffer without wrapping, and draws no free value. -/
def Obligations.SafeTickReadsInsideItsBuffers : Prop :=
  ∀ s : State, s.ten = 1 → s.cnt ≠ 0 → s.cnt.toNat ≤ 5 → s.TickSafe →
    ∃ t, exec .tick s = .next t ∧ t.draws = s.draws ∧
      ∀ i < s.cnt.toNat,
        let x := foundCtx s (s.chsel.toList.take s.cnt.toNat) i
        x.TickLegal ∧ (x.buf + x.loc).toNat = x.buf.toNat + x.loc.toNat ∧
          x.buf.toNat + x.loc.toNat < x.buf.toNat + x.len.toNat ∧ x.buf.toNat + x.len.toNat ≤ 2 ^ 16 ∧
          (readByte (s.memory (spaceOf s.rmode)) (x.buf + x.loc).toNat).isSome = true

/-! ### The mixer -/

/-- 42_tick_mix_output.md section 3: with parameters that meet the conditions on `MIXTABLE`, for every count and every sum
of that many samples the product fits 16 bits and the output loses no bit. -/
def Obligations.MixLosesNoBitOfALegalSum : Prop :=
  ∀ (c : Config) (n sum : Nat), c.legal = true → 1 ≤ n → n ≤ 5 → sum ≤ 255 * n →
    sum * (c.mixPair n).1.toNat < 2 ^ 16 ∧
    (mix (c.mixPair n).1 (c.mixPair n).2 (BitVec.ofNat 16 sum)).toNat =
      (sum * (c.mixPair n).1.toNat) / 2 ^ (c.mixPair n).2.toNat

/-- 42_tick_mix_output.md section 3, the error bound for the default table: exact for counts 1, 2, 4; for 3 and 5 the floor of
the average or one less, within 5/3 and 9/5 of the average, reached at the sums 515 and 1029. -/
def Obligations.MixErrorIsBounded : Prop :=
  let out := fun (n sum : Nat) =>
    (mix (Config.default.mixPair n).1 (Config.default.mixPair n).2 (BitVec.ofNat 16 sum)).toNat
  (∀ n sum : Nat, (n = 1 ∨ n = 2 ∨ n = 4) → sum ≤ 255 * n → out n sum = sum / n) ∧
  (∀ sum : Nat, sum ≤ 765 → (out 3 sum = sum / 3 ∨ out 3 sum + 1 = sum / 3) ∧
    3 * out 3 sum ≤ sum ∧ sum ≤ 3 * out 3 sum + 5) ∧
  (∀ sum : Nat, sum ≤ 1275 → (out 5 sum = sum / 5 ∨ out 5 sum + 1 = sum / 5) ∧
    5 * out 5 sum ≤ sum ∧ sum ≤ 5 * out 5 sum + 9) ∧
  out 3 515 = 170 ∧ out 5 1029 = 204 ∧ out 3 765 = 254 ∧ out 5 1275 = 254 ∧ out 3 60 = 19

/-! ### Who writes what -/

/-- 20_memory.md section 2, 10_state.md section 5: no command makes an access; no instruction changes a byte of a sample
memory, a parameter, or the inputs to come (parameters and inputs as fields of the state are the model's own, logs 3, 4). -/
def Obligations.CommandsMakeNoAccess : Prop :=
  ∀ (i : Instr) (s t : State), exec i s = .next t →
    SameMemory s t ∧ SameSurroundings s t ∧ (i ≠ .tick → NoAccess s t)

/-- 41_channel_set.md introduction, 70 section 3: the channel list, the count and the mix pair are changed only by `PLAY`,
`STOP` and reset (a step as one input of a list, the reset among them, is the model's own: logs 4, 14). -/
def Obligations.OnlyPlayAndStopChangeTheChannels : Prop :=
  ∀ s t : State, step s = .next t → s.inputs.head? ≠ some .reset → nextInstr s ≠ some .stop →
    (∀ count ch0 ch1 ch2 ch3 ch4, nextInstr s ≠ some (.play count ch0 ch1 ch2 ch3 ch4)) →
      SameChannels s t ∧ SameMixPair s t

/-- 10_state.md section 2: of a context, buffer and length are written only by its `WCFG`, the step only by its `WCFG` or
`WSTEP`, location and remainder only by its `WCFG` or a tick that lists it (and all by reset). A step as one input of
a list, the reset among them, is the model's own (logs 4, 14). -/
def Obligations.ContextFieldsHaveTheirWriters : Prop :=
  ∀ (s t : State) (w : CtxIdx), step s = .next t → s.inputs.head? ≠ some .reset →
    (∀ buf len stp, nextInstr s ≠ some (.wcfg w buf len stp)) →
      (t.ctx w).buf = (s.ctx w).buf ∧ (t.ctx w).len = (s.ctx w).len ∧
      ((∀ stp, nextInstr s ≠ some (.wstep w stp)) → (t.ctx w).step = (s.ctx w).step) ∧
      ((nextInstr s ≠ some .tick ∨ w ∉ visited s) →
        (t.ctx w).loc = (s.ctx w).loc ∧ (t.ctx w).rem = (s.ctx w).rem)

/-- 42_tick_mix_output.md section 4, 70 section 3: the output persists: a port register changes only by a tick with channels
or a store of the host. The store as an input of a list is the model's own (logs 4, 16), and so is that a reset keeps the
ports (log 14). -/
def Obligations.OutputPersistsBetweenTicks : Prop :=
  ∀ s t : State, step s = .next t → (∀ p v, s.inputs.head? ≠ some (.hostPort p v)) →
    (nextInstr s = some .tick → s.ten = 0 ∨ s.cnt = 0) → t.pLo = s.pLo ∧ t.pHi = s.pHi

/-! ### The host's side -/

/-- 20_memory.md section 3: a store of the host into a sample memory is what every later fetch of that byte reads, and it
changes nothing else (the input that stands for the store is the model's own, log 16). -/
def Obligations.HostStoreIsSeenByTheNextFetch : Prop :=
  ∀ (s : State) (space : Space) (addr : Half) (v : Byte) (rest : List Input),
    s.inputs = .hostStore space addr v :: rest →
      ∃ t, step s = .next t ∧ t.inputs = rest ∧
        (∀ sp a, readByte (t.memory sp) a =
          if sp = space ∧ a = addr.toNat then some v else readByte (s.memory sp) a) ∧
        (∀ w, spaceOf s.rmode = space → (s.ctx w).buf + (s.ctx w).loc = addr → fetchByte w t = v) ∧
        SameContexts s t ∧ SameChannels s t ∧ SameMixPair s t ∧ SameConfiguration s t ∧ t.ten = s.ten ∧
        t.pLo = s.pLo ∧ t.pHi = s.pHi ∧ t.trace = s.trace ∧ t.cfg = s.cfg

/-- 20_memory.md section 1: a port register holds the last value written by anyone, here by the host (the input that stands
for the store is the model's own, log 16). -/
def Obligations.HostPortWriteReplacesOnePort : Prop :=
  ∀ (s : State) (p : Port) (v : Byte) (rest : List Input), s.inputs = .hostPort p v :: rest →
    ∃ t, step s = .next t ∧ t.inputs = rest ∧ t.port p = v ∧ (∀ q, q ≠ p → t.port q = s.port q) ∧
      SameContexts s t ∧ SameChannels s t ∧ SameMixPair s t ∧ SameConfiguration s t ∧ t.ten = s.ten ∧
      SameMemory s t ∧ t.trace = s.trace ∧ t.cfg = s.cfg

/-- 40_stepping.md section 4 (host side): a defined `StepOf` is the truncated quotient, and a unit of passes per second gives
a step that advances at most that many passes per second and less than one 512th of a sample a tick fewer. -/
def Obligations.StepOfIsTheTruncatedQuotient : Prop :=
  (∀ d n fs : Nat, stepOf .native d n fs = some 512) ∧
  (∀ (f n fs : Nat) (stp : Half), stepOf .hz f n fs = some stp →
    stp.toNat * fs ≤ f * n * 512 ∧ f * n * 512 < (stp.toNat + 1) * fs) ∧
  stepOf .hz 440 100 31250 = some 720
end

