-- ==== Sys2Proof/Laws/PerInstr.lean ====
section
/-!
SUPPORT. Statements made instruction by instruction: every encoding lies in its own row of the opcode map
(30_encoding.md R89), so that every must-be-zero bit is zero and no other row is selected.
-/

namespace Sys2Proof.Laws

/-- The five rows of R89 for command words, as (mask, match); `TICK` has none. -/
def rowOf : Instr → Option (CmdWord × CmdWord)
  | .ecfg _ _ _ => some (maskEcfg, matchEcfg)
  | .play _ _ _ _ _ _ => some (maskPlay, matchPlay)
  | .stop => some (maskStop, matchStop)
  | .wcfg _ _ _ _ => some (maskWcfg, matchWcfg)
  | .wstep _ _ => some (maskWstep, matchWstep)
  | .tick => none

/-- The encoding of an instruction lies in its row: a command word that agrees with the row's match on the row's mask,
or, for the operation without a row of words, the tick input at 1. -/
def EncodeSelectsRow.Statement (i : Instr) : Prop :=
  match rowOf i with
  | some r => ∃ c, encode i = .command c ∧ c &&& r.1 = r.2 ∧ opOf c = opOf r.2
  | none => encode i = .tick 1

/-- A word that agrees with a match on a mask that covers `op` has the match's `op`. -/
theorem opOf_of_mask {c mask pattern : CmdWord} (h : c &&& mask = pattern) (hm : opOf mask = 15) :
    opOf c = opOf pattern := by
  subst h
  apply BitVec.eq_of_getLsbD_eq
  intro i hi
  have : (opOf mask).getLsbD i = true := by rw [hm]; interval_cases i <;> decide
  simp only [opOf, field, BitVec.getLsbD_extractLsb', BitVec.getLsbD_and] at this ⊢
  rcases h : decide (i < 4) with _ | _ <;> simp_all

theorem encodeEcfg_row (off : BitVec 3) (mode : BitVec 1) (rate : BitVec 8) :
    encodeEcfg off mode rate &&& maskEcfg = matchEcfg := by
  apply BitVec.eq_of_getLsbD_eq
  intro i hi
  simp only [encodeEcfg, BitVec.getLsbD_and, BitVec.getLsbD_append]
  interval_cases i <;> simp [maskEcfg, matchEcfg]

theorem encodePlay_row (count : BitVec 8) (ch0 ch1 ch2 ch3 ch4 : CtxIdx) :
    encodePlay count ch0 ch1 ch2 ch3 ch4 &&& maskPlay = matchPlay := by
  apply BitVec.eq_of_getLsbD_eq
  intro i hi
  simp only [encodePlay, BitVec.getLsbD_and, BitVec.getLsbD_append]
  interval_cases i <;> simp [maskPlay, matchPlay]

theorem encodeWcfg_row (w : CtxIdx) (buf len step : Half) :
    encodeWcfg w buf len step &&& maskWcfg = matchWcfg := by
  apply BitVec.eq_of_getLsbD_eq
  intro i hi
  simp only [encodeWcfg, BitVec.getLsbD_and, BitVec.getLsbD_append]
  interval_cases i <;> simp [maskWcfg, matchWcfg]

theorem encodeWstep_row (w : CtxIdx) (step : Half) :
    encodeWstep w step &&& maskWstep = matchWstep := by
  apply BitVec.eq_of_getLsbD_eq
  intro i hi
  simp only [encodeWstep, BitVec.getLsbD_and, BitVec.getLsbD_append]
  interval_cases i <;> simp [maskWstep, matchWstep]

theorem EncodeSelectsRow.ecfg (off : BitVec 3) (mode : BitVec 1) (rate : BitVec 8) :
    EncodeSelectsRow.Statement (.ecfg off mode rate) :=
  ⟨_, rfl, encodeEcfg_row off mode rate, opOf_of_mask (encodeEcfg_row off mode rate) (by decide)⟩

theorem EncodeSelectsRow.play (count : BitVec 8) (ch0 ch1 ch2 ch3 ch4 : CtxIdx) :
    EncodeSelectsRow.Statement (.play count ch0 ch1 ch2 ch3 ch4) :=
  ⟨_, rfl, encodePlay_row count ch0 ch1 ch2 ch3 ch4,
    opOf_of_mask (encodePlay_row count ch0 ch1 ch2 ch3 ch4) (by decide)⟩

theorem EncodeSelectsRow.stop : EncodeSelectsRow.Statement .stop := ⟨_, rfl, by decide, by decide⟩

theorem EncodeSelectsRow.wcfg (w : CtxIdx) (buf len step : Half) :
    EncodeSelectsRow.Statement (.wcfg w buf len step) :=
  ⟨_, rfl, encodeWcfg_row w buf len step, opOf_of_mask (encodeWcfg_row w buf len step) (by decide)⟩

theorem EncodeSelectsRow.wstep (w : CtxIdx) (step : Half) :
    EncodeSelectsRow.Statement (.wstep w step) :=
  ⟨_, rfl, encodeWstep_row w step, opOf_of_mask (encodeWstep_row w step) (by decide)⟩

theorem EncodeSelectsRow.tick : EncodeSelectsRow.Statement .tick := rfl

end Sys2Proof.Laws
end

