-- ==== Sys2Proof/Laws/Decode.lean ====
section
/-!
SUPPORT. What decoding a command word can answer, said once: a row's instruction exactly where the row matches.
-/

namespace Sys2Proof.Laws

theorem checkRow_eq_ok {c mask pattern : CmdWord} {i j : Instr} :
    checkRow c mask pattern i = .ok j ↔ c &&& mask = pattern ∧ i = j := by
  unfold checkRow
  split
  · rename_i h; simp [h]
  · rename_i h; simp [h]

/-- A word decodes only through the row whose mask and match it meets. -/
theorem decodeCommand_ok {c : CmdWord} {i : Instr} (h : decodeCommand c = .ok i) :
    (c &&& maskEcfg = matchEcfg ∧ fieldsEcfg c = i) ∨ (c &&& maskPlay = matchPlay ∧ fieldsPlay c = i) ∨
      (c &&& maskStop = matchStop ∧ .stop = i) ∨ (c &&& maskWcfg = matchWcfg ∧ fieldsWcfg c = i) ∨
      (c &&& maskWstep = matchWstep ∧ fieldsWstep c = i) := by
  unfold decodeCommand at h
  split at h
  · exact .inl (checkRow_eq_ok.1 h)
  split at h
  · exact .inr (.inl (checkRow_eq_ok.1 h))
  split at h
  · exact .inr (.inr (.inl (checkRow_eq_ok.1 h)))
  split at h
  · exact .inr (.inr (.inr (.inl (checkRow_eq_ok.1 h))))
  split at h
  · exact .inr (.inr (.inr (.inr (checkRow_eq_ok.1 h))))
  · cases h

theorem decodeCommand_ecfg {c : CmdWord} (h : c &&& maskEcfg = matchEcfg) :
    decodeCommand c = .ok (fieldsEcfg c) := by
  have ho : opOf c = 1 := opOf_of_mask h (by decide)
  simp [decodeCommand, ho, checkRow, h]

theorem decodeCommand_play {c : CmdWord} (h : c &&& maskPlay = matchPlay) :
    decodeCommand c = .ok (fieldsPlay c) := by
  have ho : opOf c = 2 := opOf_of_mask h (by decide)
  simp [decodeCommand, ho, checkRow, h]

theorem decodeCommand_stop {c : CmdWord} (h : c &&& maskStop = matchStop) :
    decodeCommand c = .ok .stop := by
  have ho : opOf c = 3 := opOf_of_mask h (by decide)
  simp [decodeCommand, ho, checkRow, h]

theorem decodeCommand_wcfg {c : CmdWord} (h : c &&& maskWcfg = matchWcfg) :
    decodeCommand c = .ok (fieldsWcfg c) := by
  have ho : opOf c = 4 := opOf_of_mask h (by decide)
  simp [decodeCommand, ho, checkRow, h]

theorem decodeCommand_wstep {c : CmdWord} (h : c &&& maskWstep = matchWstep) :
    decodeCommand c = .ok (fieldsWstep c) := by
  have ho : opOf c = 5 := opOf_of_mask h (by decide)
  simp [decodeCommand, ho, checkRow, h]

end Sys2Proof.Laws
end

