-- ==== Sys2Proof/Laws/Memory.lean ====
section
/-!
SUPPORT. The laws of a sample memory: a read after a write or an erasure, and the canonical form is kept.
-/

namespace Sys2Proof.Laws

open Sys2Proof.Machine

@[simp] theorem readByte_nil (a : Nat) : readByte [] a = none := rfl

theorem readByte_cons (c : Host.Cell) (m : Memory) (a : Nat) :
    readByte (c :: m) a = if c.1 = a then some c.2 else readByte m a := rfl

/-- Below every listed address nothing is provided. -/
theorem readByte_below (m : Memory) (a : Nat) (h : ∀ c ∈ m, a < c.1) : readByte m a = none := by
  induction m with
  | nil => rfl
  | cons c m ih =>
    have hc := h c (by simp)
    rw [readByte_cons, if_neg (by omega), ih (fun d hd => h d (by simp [hd]))]

/-- A read of the address just written gives the value written. -/
@[simp] theorem readByte_writeByte_same (m : Memory) (a : Nat) (v : Byte) :
    readByte (writeByte m a v) a = some v := by
  induction m with
  | nil => simp [writeByte, readByte]
  | cons c m ih =>
    unfold writeByte
    split
    · simp [readByte]
    · split
      · simp [readByte]
      · rename_i h
        rw [readByte_cons, if_neg h, ih]

/-- A write leaves every other address as it was. -/
theorem readByte_writeByte_ne (m : Memory) {a b : Nat} (v : Byte) (h : b ≠ a) :
    readByte (writeByte m a v) b = readByte m b := by
  induction m with
  | nil => simp [writeByte, readByte, Ne.symm h]
  | cons c m ih =>
    unfold writeByte
    split
    · rw [readByte_cons, if_neg (Ne.symm h)]
    · split
      · rename_i hc
        rw [readByte_cons, readByte_cons, hc]
        simp [Ne.symm h]
      · rw [readByte_cons, readByte_cons, ih]

/-- Nothing is provided at an erased address. -/
@[simp] theorem readByte_eraseByte_same (m : Memory) (a : Nat) : readByte (eraseByte m a) a = none := by
  induction m with
  | nil => rfl
  | cons c m ih =>
    unfold eraseByte at *
    by_cases h : c.1 = a
    · simp [h]; simpa using ih
    · simp [h, readByte_cons]; simpa using ih

/-- An erasure leaves every other address as it was. -/
theorem readByte_eraseByte_ne (m : Memory) {a b : Nat} (h : b ≠ a) :
    readByte (eraseByte m a) b = readByte m b := by
  induction m with
  | nil => rfl
  | cons c m ih =>
    unfold eraseByte at *
    by_cases hc : c.1 = a
    · have : c.1 ≠ b := by omega
      simp only [List.filter_cons, hc, ne_eq, not_true, decide_false, readByte_cons]
      rw [if_neg (by simp), if_neg (by omega)]
      exact ih
    · simp only [List.filter_cons, ne_eq, hc, not_false_iff, decide_true, if_true, readByte_cons]
      rw [ih]

theorem mem_writeByte {m : Memory} {a : Nat} {v : Byte} {c : Host.Cell} (h : c ∈ writeByte m a v) :
    c = (a, v) ∨ c ∈ m := by
  induction m with
  | nil => exact .inl (by simpa [writeByte] using h)
  | cons d m ih =>
    unfold writeByte at h
    split at h
    · simpa using h
    · split at h
      · simp only [List.mem_cons] at h ⊢
        tauto
      · simp only [List.mem_cons] at h ⊢
        rcases h with h | h
        · exact .inr (.inl h)
        · rcases ih h with h | h
          · exact .inl h
          · exact .inr (.inr h)

theorem wf_nil : Memory.wf [] := by simp [Memory.wf]

/-- A write keeps the canonical form. -/
theorem wf_writeByte {m : Memory} (h : Memory.wf m) (a : Half) (v : Byte) :
    Memory.wf (writeByte m a.toNat v) := by
  refine ⟨?_, fun c hc => ?_⟩
  · have hp := h.1
    clear h
    induction m with
    | nil => simp [writeByte]
    | cons d m ih =>
      rw [List.pairwise_cons] at hp
      unfold writeByte
      split
      · rename_i hlt
        refine List.pairwise_cons.2 ⟨fun c hc => ?_, List.pairwise_cons.2 hp⟩
        rcases List.mem_cons.1 hc with rfl | hc
        · exact hlt
        · exact Nat.lt_trans hlt (hp.1 c hc)
      · split
        · rename_i heq
          exact List.pairwise_cons.2 ⟨fun c hc => by simpa [heq] using hp.1 c hc, hp.2⟩
        · refine List.pairwise_cons.2 ⟨fun c hc => ?_, ih hp.2⟩
          rcases mem_writeByte hc with rfl | hc
          · simp only; omega
          · exact hp.1 c hc
  · rcases mem_writeByte hc with rfl | hc
    · exact a.isLt
    · exact h.2 c hc

/-- An erasure keeps the canonical form. -/
theorem wf_eraseByte {m : Memory} (h : Memory.wf m) (a : Nat) : Memory.wf (eraseByte m a) :=
  ⟨h.1.filter _, fun c hc => h.2 c (List.mem_filter.1 hc).1⟩

end Sys2Proof.Laws
end

