-- ==== Sys2Proof/Laws/State.lean ====
section
/-!
SUPPORT. One lemma per field per update, so that no proof unfolds a record update.
-/

namespace Sys2Proof.Laws

open Sys2Proof.Machine

/-! ### `State.memRead` -/
@[simp] theorem memRead_cfg (s : State) (space : Space) (addr : Half) : (s.memRead space addr).cfg = s.cfg := rfl
@[simp] theorem memRead_ctxs (s : State) (space : Space) (addr : Half) : (s.memRead space addr).ctxs = s.ctxs := rfl
@[simp] theorem memRead_cnt (s : State) (space : Space) (addr : Half) : (s.memRead space addr).cnt = s.cnt := rfl
@[simp] theorem memRead_chsel (s : State) (space : Space) (addr : Half) : (s.memRead space addr).chsel = s.chsel := rfl
@[simp] theorem memRead_mixm (s : State) (space : Space) (addr : Half) : (s.memRead space addr).mixm = s.mixm := rfl
@[simp] theorem memRead_mixs (s : State) (space : Space) (addr : Half) : (s.memRead space addr).mixs = s.mixs := rfl
@[simp] theorem memRead_offset (s : State) (space : Space) (addr : Half) : (s.memRead space addr).offset = s.offset := rfl
@[simp] theorem memRead_lmask (s : State) (space : Space) (addr : Half) : (s.memRead space addr).lmask = s.lmask := rfl
@[simp] theorem memRead_umask (s : State) (space : Space) (addr : Half) : (s.memRead space addr).umask = s.umask := rfl
@[simp] theorem memRead_rmode (s : State) (space : Space) (addr : Half) : (s.memRead space addr).rmode = s.rmode := rfl
@[simp] theorem memRead_trate (s : State) (space : Space) (addr : Half) : (s.memRead space addr).trate = s.trate := rfl
@[simp] theorem memRead_ten (s : State) (space : Space) (addr : Half) : (s.memRead space addr).ten = s.ten := rfl
@[simp] theorem memRead_cfgWritten (s : State) (space : Space) (addr : Half) : (s.memRead space addr).cfgWritten = s.cfgWritten := rfl
@[simp] theorem memRead_pLo (s : State) (space : Space) (addr : Half) : (s.memRead space addr).pLo = s.pLo := rfl
@[simp] theorem memRead_pHi (s : State) (space : Space) (addr : Half) : (s.memRead space addr).pHi = s.pHi := rfl
@[simp] theorem memRead_ram (s : State) (space : Space) (addr : Half) : (s.memRead space addr).ram = s.ram := rfl
@[simp] theorem memRead_rom (s : State) (space : Space) (addr : Half) : (s.memRead space addr).rom = s.rom := rfl
@[simp] theorem memRead_trace (s : State) (space : Space) (addr : Half) : (s.memRead space addr).trace = s.trace ++ [.memRead space addr (s.sampleByte space addr)] := rfl
@[simp] theorem memRead_draws (s : State) (space : Space) (addr : Half) : (s.memRead space addr).draws = s.drawsAfter space addr := rfl
@[simp] theorem memRead_inputs (s : State) (space : Space) (addr : Half) : (s.memRead space addr).inputs = s.inputs := rfl


/-! ### `State.ioRead` -/
@[simp] theorem ioRead_cfg (s : State) (p : Port) : (s.ioRead p).cfg = s.cfg := rfl
@[simp] theorem ioRead_ctxs (s : State) (p : Port) : (s.ioRead p).ctxs = s.ctxs := rfl
@[simp] theorem ioRead_cnt (s : State) (p : Port) : (s.ioRead p).cnt = s.cnt := rfl
@[simp] theorem ioRead_chsel (s : State) (p : Port) : (s.ioRead p).chsel = s.chsel := rfl
@[simp] theorem ioRead_mixm (s : State) (p : Port) : (s.ioRead p).mixm = s.mixm := rfl
@[simp] theorem ioRead_mixs (s : State) (p : Port) : (s.ioRead p).mixs = s.mixs := rfl
@[simp] theorem ioRead_offset (s : State) (p : Port) : (s.ioRead p).offset = s.offset := rfl
@[simp] theorem ioRead_lmask (s : State) (p : Port) : (s.ioRead p).lmask = s.lmask := rfl
@[simp] theorem ioRead_umask (s : State) (p : Port) : (s.ioRead p).umask = s.umask := rfl
@[simp] theorem ioRead_rmode (s : State) (p : Port) : (s.ioRead p).rmode = s.rmode := rfl
@[simp] theorem ioRead_trate (s : State) (p : Port) : (s.ioRead p).trate = s.trate := rfl
@[simp] theorem ioRead_ten (s : State) (p : Port) : (s.ioRead p).ten = s.ten := rfl
@[simp] theorem ioRead_cfgWritten (s : State) (p : Port) : (s.ioRead p).cfgWritten = s.cfgWritten := rfl
@[simp] theorem ioRead_pLo (s : State) (p : Port) : (s.ioRead p).pLo = s.pLo := rfl
@[simp] theorem ioRead_pHi (s : State) (p : Port) : (s.ioRead p).pHi = s.pHi := rfl
@[simp] theorem ioRead_ram (s : State) (p : Port) : (s.ioRead p).ram = s.ram := rfl
@[simp] theorem ioRead_rom (s : State) (p : Port) : (s.ioRead p).rom = s.rom := rfl
@[simp] theorem ioRead_trace (s : State) (p : Port) : (s.ioRead p).trace = s.trace ++ [.ioRead p (s.port p)] := rfl
@[simp] theorem ioRead_draws (s : State) (p : Port) : (s.ioRead p).draws = s.draws := rfl
@[simp] theorem ioRead_inputs (s : State) (p : Port) : (s.ioRead p).inputs = s.inputs := rfl


/-! ### `State.setPort` -/
@[simp] theorem setPort_cfg (s : State) (p : Port) (v : Byte) : (s.setPort p v).cfg = s.cfg := by cases p <;> rfl
@[simp] theorem setPort_ctxs (s : State) (p : Port) (v : Byte) : (s.setPort p v).ctxs = s.ctxs := by cases p <;> rfl
@[simp] theorem setPort_cnt (s : State) (p : Port) (v : Byte) : (s.setPort p v).cnt = s.cnt := by cases p <;> rfl
@[simp] theorem setPort_chsel (s : State) (p : Port) (v : Byte) : (s.setPort p v).chsel = s.chsel := by cases p <;> rfl
@[simp] theorem setPort_mixm (s : State) (p : Port) (v : Byte) : (s.setPort p v).mixm = s.mixm := by cases p <;> rfl
@[simp] theorem setPort_mixs (s : State) (p : Port) (v : Byte) : (s.setPort p v).mixs = s.mixs := by cases p <;> rfl
@[simp] theorem setPort_offset (s : State) (p : Port) (v : Byte) : (s.setPort p v).offset = s.offset := by cases p <;> rfl
@[simp] theorem setPort_lmask (s : State) (p : Port) (v : Byte) : (s.setPort p v).lmask = s.lmask := by cases p <;> rfl
@[simp] theorem setPort_umask (s : State) (p : Port) (v : Byte) : (s.setPort p v).umask = s.umask := by cases p <;> rfl
@[simp] theorem setPort_rmode (s : State) (p : Port) (v : Byte) : (s.setPort p v).rmode = s.rmode := by cases p <;> rfl
@[simp] theorem setPort_trate (s : State) (p : Port) (v : Byte) : (s.setPort p v).trate = s.trate := by cases p <;> rfl
@[simp] theorem setPort_ten (s : State) (p : Port) (v : Byte) : (s.setPort p v).ten = s.ten := by cases p <;> rfl
@[simp] theorem setPort_cfgWritten (s : State) (p : Port) (v : Byte) : (s.setPort p v).cfgWritten = s.cfgWritten := by cases p <;> rfl
@[simp] theorem setPort_pLo (s : State) (p : Port) (v : Byte) : (s.setPort p v).pLo = if p = .lo then v else s.pLo := by cases p <;> rfl
@[simp] theorem setPort_pHi (s : State) (p : Port) (v : Byte) : (s.setPort p v).pHi = if p = .hi then v else s.pHi := by cases p <;> rfl
@[simp] theorem setPort_ram (s : State) (p : Port) (v : Byte) : (s.setPort p v).ram = s.ram := by cases p <;> rfl
@[simp] theorem setPort_rom (s : State) (p : Port) (v : Byte) : (s.setPort p v).rom = s.rom := by cases p <;> rfl
@[simp] theorem setPort_trace (s : State) (p : Port) (v : Byte) : (s.setPort p v).trace = s.trace := by cases p <;> rfl
@[simp] theorem setPort_draws (s : State) (p : Port) (v : Byte) : (s.setPort p v).draws = s.draws := by cases p <;> rfl
@[simp] theorem setPort_inputs (s : State) (p : Port) (v : Byte) : (s.setPort p v).inputs = s.inputs := by cases p <;> rfl


/-! ### `State.ioWrite` -/
@[simp] theorem ioWrite_cfg (s : State) (p : Port) (v : Byte) : (s.ioWrite p v).cfg = s.cfg := by cases p <;> rfl
@[simp] theorem ioWrite_ctxs (s : State) (p : Port) (v : Byte) : (s.ioWrite p v).ctxs = s.ctxs := by cases p <;> rfl
@[simp] theorem ioWrite_cnt (s : State) (p : Port) (v : Byte) : (s.ioWrite p v).cnt = s.cnt := by cases p <;> rfl
@[simp] theorem ioWrite_chsel (s : State) (p : Port) (v : Byte) : (s.ioWrite p v).chsel = s.chsel := by cases p <;> rfl
@[simp] theorem ioWrite_mixm (s : State) (p : Port) (v : Byte) : (s.ioWrite p v).mixm = s.mixm := by cases p <;> rfl
@[simp] theorem ioWrite_mixs (s : State) (p : Port) (v : Byte) : (s.ioWrite p v).mixs = s.mixs := by cases p <;> rfl
@[simp] theorem ioWrite_offset (s : State) (p : Port) (v : Byte) : (s.ioWrite p v).offset = s.offset := by cases p <;> rfl
@[simp] theorem ioWrite_lmask (s : State) (p : Port) (v : Byte) : (s.ioWrite p v).lmask = s.lmask := by cases p <;> rfl
@[simp] theorem ioWrite_umask (s : State) (p : Port) (v : Byte) : (s.ioWrite p v).umask = s.umask := by cases p <;> rfl
@[simp] theorem ioWrite_rmode (s : State) (p : Port) (v : Byte) : (s.ioWrite p v).rmode = s.rmode := by cases p <;> rfl
@[simp] theorem ioWrite_trate (s : State) (p : Port) (v : Byte) : (s.ioWrite p v).trate = s.trate := by cases p <;> rfl
@[simp] theorem ioWrite_ten (s : State) (p : Port) (v : Byte) : (s.ioWrite p v).ten = s.ten := by cases p <;> rfl
@[simp] theorem ioWrite_cfgWritten (s : State) (p : Port) (v : Byte) : (s.ioWrite p v).cfgWritten = s.cfgWritten := by cases p <;> rfl
@[simp] theorem ioWrite_pLo (s : State) (p : Port) (v : Byte) : (s.ioWrite p v).pLo = if p = .lo then v else s.pLo := by cases p <;> rfl
@[simp] theorem ioWrite_pHi (s : State) (p : Port) (v : Byte) : (s.ioWrite p v).pHi = if p = .hi then v else s.pHi := by cases p <;> rfl
@[simp] theorem ioWrite_ram (s : State) (p : Port) (v : Byte) : (s.ioWrite p v).ram = s.ram := by cases p <;> rfl
@[simp] theorem ioWrite_rom (s : State) (p : Port) (v : Byte) : (s.ioWrite p v).rom = s.rom := by cases p <;> rfl
@[simp] theorem ioWrite_trace (s : State) (p : Port) (v : Byte) : (s.ioWrite p v).trace = s.trace ++ [.ioWrite p v] := by cases p <;> rfl
@[simp] theorem ioWrite_draws (s : State) (p : Port) (v : Byte) : (s.ioWrite p v).draws = s.draws := by cases p <;> rfl
@[simp] theorem ioWrite_inputs (s : State) (p : Port) (v : Byte) : (s.ioWrite p v).inputs = s.inputs := by cases p <;> rfl


/-! ### `State.setMemory` -/
@[simp] theorem setMemory_cfg (s : State) (space : Space) (m : Memory) : (s.setMemory space m).cfg = s.cfg := by cases space <;> rfl
@[simp] theorem setMemory_ctxs (s : State) (space : Space) (m : Memory) : (s.setMemory space m).ctxs = s.ctxs := by cases space <;> rfl
@[simp] theorem setMemory_cnt (s : State) (space : Space) (m : Memory) : (s.setMemory space m).cnt = s.cnt := by cases space <;> rfl
@[simp] theorem setMemory_chsel (s : State) (space : Space) (m : Memory) : (s.setMemory space m).chsel = s.chsel := by cases space <;> rfl
@[simp] theorem setMemory_mixm (s : State) (space : Space) (m : Memory) : (s.setMemory space m).mixm = s.mixm := by cases space <;> rfl
@[simp] theorem setMemory_mixs (s : State) (space : Space) (m : Memory) : (s.setMemory space m).mixs = s.mixs := by cases space <;> rfl
@[simp] theorem setMemory_offset (s : State) (space : Space) (m : Memory) : (s.setMemory space m).offset = s.offset := by cases space <;> rfl
@[simp] theorem setMemory_lmask (s : State) (space : Space) (m : Memory) : (s.setMemory space m).lmask = s.lmask := by cases space <;> rfl
@[simp] theorem setMemory_umask (s : State) (space : Space) (m : Memory) : (s.setMemory space m).umask = s.umask := by cases space <;> rfl
@[simp] theorem setMemory_rmode (s : State) (space : Space) (m : Memory) : (s.setMemory space m).rmode = s.rmode := by cases space <;> rfl
@[simp] theorem setMemory_trate (s : State) (space : Space) (m : Memory) : (s.setMemory space m).trate = s.trate := by cases space <;> rfl
@[simp] theorem setMemory_ten (s : State) (space : Space) (m : Memory) : (s.setMemory space m).ten = s.ten := by cases space <;> rfl
@[simp] theorem setMemory_cfgWritten (s : State) (space : Space) (m : Memory) : (s.setMemory space m).cfgWritten = s.cfgWritten := by cases space <;> rfl
@[simp] theorem setMemory_pLo (s : State) (space : Space) (m : Memory) : (s.setMemory space m).pLo = s.pLo := by cases space <;> rfl
@[simp] theorem setMemory_pHi (s : State) (space : Space) (m : Memory) : (s.setMemory space m).pHi = s.pHi := by cases space <;> rfl
@[simp] theorem setMemory_ram (s : State) (space : Space) (m : Memory) : (s.setMemory space m).ram = if space = .ram then m else s.ram := by cases space <;> rfl
@[simp] theorem setMemory_rom (s : State) (space : Space) (m : Memory) : (s.setMemory space m).rom = if space = .rom then m else s.rom := by cases space <;> rfl
@[simp] theorem setMemory_trace (s : State) (space : Space) (m : Memory) : (s.setMemory space m).trace = s.trace := by cases space <;> rfl
@[simp] theorem setMemory_draws (s : State) (space : Space) (m : Memory) : (s.setMemory space m).draws = s.draws := by cases space <;> rfl
@[simp] theorem setMemory_inputs (s : State) (space : Space) (m : Memory) : (s.setMemory space m).inputs = s.inputs := by cases space <;> rfl


/-! ### `State.setCtx` -/
@[simp] theorem setCtx_cfg (s : State) (w : CtxIdx) (x : Ctx) : (s.setCtx w x).cfg = s.cfg := rfl
@[simp] theorem setCtx_ctxs (s : State) (w : CtxIdx) (x : Ctx) : (s.setCtx w x).ctxs = s.ctxs.set w.toNat x w.isLt := rfl
@[simp] theorem setCtx_cnt (s : State) (w : CtxIdx) (x : Ctx) : (s.setCtx w x).cnt = s.cnt := rfl
@[simp] theorem setCtx_chsel (s : State) (w : CtxIdx) (x : Ctx) : (s.setCtx w x).chsel = s.chsel := rfl
@[simp] theorem setCtx_mixm (s : State) (w : CtxIdx) (x : Ctx) : (s.setCtx w x).mixm = s.mixm := rfl
@[simp] theorem setCtx_mixs (s : State) (w : CtxIdx) (x : Ctx) : (s.setCtx w x).mixs = s.mixs := rfl
@[simp] theorem setCtx_offset (s : State) (w : CtxIdx) (x : Ctx) : (s.setCtx w x).offset = s.offset := rfl
@[simp] theorem setCtx_lmask (s : State) (w : CtxIdx) (x : Ctx) : (s.setCtx w x).lmask = s.lmask := rfl
@[simp] theorem setCtx_umask (s : State) (w : CtxIdx) (x : Ctx) : (s.setCtx w x).umask = s.umask := rfl
@[simp] theorem setCtx_rmode (s : State) (w : CtxIdx) (x : Ctx) : (s.setCtx w x).rmode = s.rmode := rfl
@[simp] theorem setCtx_trate (s : State) (w : CtxIdx) (x : Ctx) : (s.setCtx w x).trate = s.trate := rfl
@[simp] theorem setCtx_ten (s : State) (w : CtxIdx) (x : Ctx) : (s.setCtx w x).ten = s.ten := rfl
@[simp] theorem setCtx_cfgWritten (s : State) (w : CtxIdx) (x : Ctx) : (s.setCtx w x).cfgWritten = s.cfgWritten := rfl
@[simp] theorem setCtx_pLo (s : State) (w : CtxIdx) (x : Ctx) : (s.setCtx w x).pLo = s.pLo := rfl
@[simp] theorem setCtx_pHi (s : State) (w : CtxIdx) (x : Ctx) : (s.setCtx w x).pHi = s.pHi := rfl
@[simp] theorem setCtx_ram (s : State) (w : CtxIdx) (x : Ctx) : (s.setCtx w x).ram = s.ram := rfl
@[simp] theorem setCtx_rom (s : State) (w : CtxIdx) (x : Ctx) : (s.setCtx w x).rom = s.rom := rfl
@[simp] theorem setCtx_trace (s : State) (w : CtxIdx) (x : Ctx) : (s.setCtx w x).trace = s.trace := rfl
@[simp] theorem setCtx_draws (s : State) (w : CtxIdx) (x : Ctx) : (s.setCtx w x).draws = s.draws := rfl
@[simp] theorem setCtx_inputs (s : State) (w : CtxIdx) (x : Ctx) : (s.setCtx w x).inputs = s.inputs := rfl


/-! ### `emptyChannels` -/
@[simp] theorem emptyChannels_cfg (s : State) : (emptyChannels s).cfg = s.cfg := rfl
@[simp] theorem emptyChannels_ctxs (s : State) : (emptyChannels s).ctxs = s.ctxs := rfl
@[simp] theorem emptyChannels_cnt (s : State) : (emptyChannels s).cnt = 0 := rfl
@[simp] theorem emptyChannels_chsel (s : State) : (emptyChannels s).chsel = #v[0, 0, 0, 0, 0] := rfl
@[simp] theorem emptyChannels_mixm (s : State) : (emptyChannels s).mixm = s.mixm := rfl
@[simp] theorem emptyChannels_mixs (s : State) : (emptyChannels s).mixs = s.mixs := rfl
@[simp] theorem emptyChannels_offset (s : State) : (emptyChannels s).offset = s.offset := rfl
@[simp] theorem emptyChannels_lmask (s : State) : (emptyChannels s).lmask = s.lmask := rfl
@[simp] theorem emptyChannels_umask (s : State) : (emptyChannels s).umask = s.umask := rfl
@[simp] theorem emptyChannels_rmode (s : State) : (emptyChannels s).rmode = s.rmode := rfl
@[simp] theorem emptyChannels_trate (s : State) : (emptyChannels s).trate = s.trate := rfl
@[simp] theorem emptyChannels_ten (s : State) : (emptyChannels s).ten = s.ten := rfl
@[simp] theorem emptyChannels_cfgWritten (s : State) : (emptyChannels s).cfgWritten = s.cfgWritten := rfl
@[simp] theorem emptyChannels_pLo (s : State) : (emptyChannels s).pLo = s.pLo := rfl
@[simp] theorem emptyChannels_pHi (s : State) : (emptyChannels s).pHi = s.pHi := rfl
@[simp] theorem emptyChannels_ram (s : State) : (emptyChannels s).ram = s.ram := rfl
@[simp] theorem emptyChannels_rom (s : State) : (emptyChannels s).rom = s.rom := rfl
@[simp] theorem emptyChannels_trace (s : State) : (emptyChannels s).trace = s.trace := rfl
@[simp] theorem emptyChannels_draws (s : State) : (emptyChannels s).draws = s.draws := rfl
@[simp] theorem emptyChannels_inputs (s : State) : (emptyChannels s).inputs = s.inputs := rfl


/-! ### `configureEngine` -/
@[simp] theorem configureEngine_cfg (off : BitVec 3) (mode : BitVec 1) (rate : BitVec 8) (s : State) : (configureEngine off mode rate s).cfg = s.cfg := rfl
@[simp] theorem configureEngine_ctxs (off : BitVec 3) (mode : BitVec 1) (rate : BitVec 8) (s : State) : (configureEngine off mode rate s).ctxs = s.ctxs := rfl
@[simp] theorem configureEngine_cnt (off : BitVec 3) (mode : BitVec 1) (rate : BitVec 8) (s : State) : (configureEngine off mode rate s).cnt = s.cnt := rfl
@[simp] theorem configureEngine_chsel (off : BitVec 3) (mode : BitVec 1) (rate : BitVec 8) (s : State) : (configureEngine off mode rate s).chsel = s.chsel := rfl
@[simp] theorem configureEngine_mixm (off : BitVec 3) (mode : BitVec 1) (rate : BitVec 8) (s : State) : (configureEngine off mode rate s).mixm = s.mixm := rfl
@[simp] theorem configureEngine_mixs (off : BitVec 3) (mode : BitVec 1) (rate : BitVec 8) (s : State) : (configureEngine off mode rate s).mixs = s.mixs := rfl
@[simp] theorem configureEngine_offset (off : BitVec 3) (mode : BitVec 1) (rate : BitVec 8) (s : State) : (configureEngine off mode rate s).offset = off := rfl
@[simp] theorem configureEngine_lmask (off : BitVec 3) (mode : BitVec 1) (rate : BitVec 8) (s : State) : (configureEngine off mode rate s).lmask = lowerMask off := rfl
@[simp] theorem configureEngine_umask (off : BitVec 3) (mode : BitVec 1) (rate : BitVec 8) (s : State) : (configureEngine off mode rate s).umask = upperMask off := rfl
@[simp] theorem configureEngine_rmode (off : BitVec 3) (mode : BitVec 1) (rate : BitVec 8) (s : State) : (configureEngine off mode rate s).rmode = mode := rfl
@[simp] theorem configureEngine_trate (off : BitVec 3) (mode : BitVec 1) (rate : BitVec 8) (s : State) : (configureEngine off mode rate s).trate = rate := rfl
@[simp] theorem configureEngine_ten (off : BitVec 3) (mode : BitVec 1) (rate : BitVec 8) (s : State) : (configureEngine off mode rate s).ten = 1 := rfl
@[simp] theorem configureEngine_cfgWritten (off : BitVec 3) (mode : BitVec 1) (rate : BitVec 8) (s : State) : (configureEngine off mode rate s).cfgWritten = true := rfl
@[simp] theorem configureEngine_pLo (off : BitVec 3) (mode : BitVec 1) (rate : BitVec 8) (s : State) : (configureEngine off mode rate s).pLo = s.pLo := rfl
@[simp] theorem configureEngine_pHi (off : BitVec 3) (mode : BitVec 1) (rate : BitVec 8) (s : State) : (configureEngine off mode rate s).pHi = s.pHi := rfl
@[simp] theorem configureEngine_ram (off : BitVec 3) (mode : BitVec 1) (rate : BitVec 8) (s : State) : (configureEngine off mode rate s).ram = s.ram := rfl
@[simp] theorem configureEngine_rom (off : BitVec 3) (mode : BitVec 1) (rate : BitVec 8) (s : State) : (configureEngine off mode rate s).rom = s.rom := rfl
@[simp] theorem configureEngine_trace (off : BitVec 3) (mode : BitVec 1) (rate : BitVec 8) (s : State) : (configureEngine off mode rate s).trace = s.trace := rfl
@[simp] theorem configureEngine_draws (off : BitVec 3) (mode : BitVec 1) (rate : BitVec 8) (s : State) : (configureEngine off mode rate s).draws = s.draws := rfl
@[simp] theorem configureEngine_inputs (off : BitVec 3) (mode : BitVec 1) (rate : BitVec 8) (s : State) : (configureEngine off mode rate s).inputs = s.inputs := rfl


/-! ### `installChannels` -/
@[simp] theorem installChannels_cfg (count : BitVec 8) (chs : Vector CtxIdx 5) (s : State) : (installChannels count chs s).cfg = s.cfg := rfl
@[simp] theorem installChannels_ctxs (count : BitVec 8) (chs : Vector CtxIdx 5) (s : State) : (installChannels count chs s).ctxs = s.ctxs := rfl
@[simp] theorem installChannels_cnt (count : BitVec 8) (chs : Vector CtxIdx 5) (s : State) : (installChannels count chs s).cnt = count.setWidth 3 := rfl
@[simp] theorem installChannels_chsel (count : BitVec 8) (chs : Vector CtxIdx 5) (s : State) : (installChannels count chs s).chsel = chs := rfl
@[simp] theorem installChannels_mixm (count : BitVec 8) (chs : Vector CtxIdx 5) (s : State) : (installChannels count chs s).mixm = (s.cfg.mixPair count.toNat).1 := rfl
@[simp] theorem installChannels_mixs (count : BitVec 8) (chs : Vector CtxIdx 5) (s : State) : (installChannels count chs s).mixs = (s.cfg.mixPair count.toNat).2 := rfl
@[simp] theorem installChannels_offset (count : BitVec 8) (chs : Vector CtxIdx 5) (s : State) : (installChannels count chs s).offset = s.offset := rfl
@[simp] theorem installChannels_lmask (count : BitVec 8) (chs : Vector CtxIdx 5) (s : State) : (installChannels count chs s).lmask = s.lmask := rfl
@[simp] theorem installChannels_umask (count : BitVec 8) (chs : Vector CtxIdx 5) (s : State) : (installChannels count chs s).umask = s.umask := rfl
@[simp] theorem installChannels_rmode (count : BitVec 8) (chs : Vector CtxIdx 5) (s : State) : (installChannels count chs s).rmode = s.rmode := rfl
@[simp] theorem installChannels_trate (count : BitVec 8) (chs : Vector CtxIdx 5) (s : State) : (installChannels count chs s).trate = s.trate := rfl
@[simp] theorem installChannels_ten (count : BitVec 8) (chs : Vector CtxIdx 5) (s : State) : (installChannels count chs s).ten = s.ten := rfl
@[simp] theorem installChannels_cfgWritten (count : BitVec 8) (chs : Vector CtxIdx 5) (s : State) : (installChannels count chs s).cfgWritten = s.cfgWritten := rfl
@[simp] theorem installChannels_pLo (count : BitVec 8) (chs : Vector CtxIdx 5) (s : State) : (installChannels count chs s).pLo = s.pLo := rfl
@[simp] theorem installChannels_pHi (count : BitVec 8) (chs : Vector CtxIdx 5) (s : State) : (installChannels count chs s).pHi = s.pHi := rfl
@[simp] theorem installChannels_ram (count : BitVec 8) (chs : Vector CtxIdx 5) (s : State) : (installChannels count chs s).ram = s.ram := rfl
@[simp] theorem installChannels_rom (count : BitVec 8) (chs : Vector CtxIdx 5) (s : State) : (installChannels count chs s).rom = s.rom := rfl
@[simp] theorem installChannels_trace (count : BitVec 8) (chs : Vector CtxIdx 5) (s : State) : (installChannels count chs s).trace = s.trace := rfl
@[simp] theorem installChannels_draws (count : BitVec 8) (chs : Vector CtxIdx 5) (s : State) : (installChannels count chs s).draws = s.draws := rfl
@[simp] theorem installChannels_inputs (count : BitVec 8) (chs : Vector CtxIdx 5) (s : State) : (installChannels count chs s).inputs = s.inputs := rfl


/-! ### `resetBlock` -/
@[simp] theorem resetBlock_cfg (s : State) : (resetBlock s).cfg = s.cfg := rfl
@[simp] theorem resetBlock_ctxs (s : State) : (resetBlock s).ctxs = Vector.replicate 8 Ctx.reset := rfl
@[simp] theorem resetBlock_cnt (s : State) : (resetBlock s).cnt = 0 := rfl
@[simp] theorem resetBlock_chsel (s : State) : (resetBlock s).chsel = #v[0, 0, 0, 0, 0] := rfl
@[simp] theorem resetBlock_mixm (s : State) : (resetBlock s).mixm = 1 := rfl
@[simp] theorem resetBlock_mixs (s : State) : (resetBlock s).mixs = 0 := rfl
@[simp] theorem resetBlock_offset (s : State) : (resetBlock s).offset = 0 := rfl
@[simp] theorem resetBlock_lmask (s : State) : (resetBlock s).lmask = 0 := rfl
@[simp] theorem resetBlock_umask (s : State) : (resetBlock s).umask = 0 := rfl
@[simp] theorem resetBlock_rmode (s : State) : (resetBlock s).rmode = 0 := rfl
@[simp] theorem resetBlock_trate (s : State) : (resetBlock s).trate = 0 := rfl
@[simp] theorem resetBlock_ten (s : State) : (resetBlock s).ten = 0 := rfl
@[simp] theorem resetBlock_cfgWritten (s : State) : (resetBlock s).cfgWritten = false := rfl
@[simp] theorem resetBlock_pLo (s : State) : (resetBlock s).pLo = s.pLo := rfl
@[simp] theorem resetBlock_pHi (s : State) : (resetBlock s).pHi = s.pHi := rfl
@[simp] theorem resetBlock_ram (s : State) : (resetBlock s).ram = s.ram := rfl
@[simp] theorem resetBlock_rom (s : State) : (resetBlock s).rom = s.rom := rfl
@[simp] theorem resetBlock_trace (s : State) : (resetBlock s).trace = s.trace := rfl
@[simp] theorem resetBlock_draws (s : State) : (resetBlock s).draws = s.draws := rfl
@[simp] theorem resetBlock_inputs (s : State) : (resetBlock s).inputs = s.inputs := rfl


/-! ### `hostStore` -/
@[simp] theorem hostStore_cfg (space : Space) (addr : Half) (v : Byte) (s : State) : (hostStore space addr v s).cfg = s.cfg := by cases space <;> rfl
@[simp] theorem hostStore_ctxs (space : Space) (addr : Half) (v : Byte) (s : State) : (hostStore space addr v s).ctxs = s.ctxs := by cases space <;> rfl
@[simp] theorem hostStore_cnt (space : Space) (addr : Half) (v : Byte) (s : State) : (hostStore space addr v s).cnt = s.cnt := by cases space <;> rfl
@[simp] theorem hostStore_chsel (space : Space) (addr : Half) (v : Byte) (s : State) : (hostStore space addr v s).chsel = s.chsel := by cases space <;> rfl
@[simp] theorem hostStore_mixm (space : Space) (addr : Half) (v : Byte) (s : State) : (hostStore space addr v s).mixm = s.mixm := by cases space <;> rfl
@[simp] theorem hostStore_mixs (space : Space) (addr : Half) (v : Byte) (s : State) : (hostStore space addr v s).mixs = s.mixs := by cases space <;> rfl
@[simp] theorem hostStore_offset (space : Space) (addr : Half) (v : Byte) (s : State) : (hostStore space addr v s).offset = s.offset := by cases space <;> rfl
@[simp] theorem hostStore_lmask (space : Space) (addr : Half) (v : Byte) (s : State) : (hostStore space addr v s).lmask = s.lmask := by cases space <;> rfl
@[simp] theorem hostStore_umask (space : Space) (addr : Half) (v : Byte) (s : State) : (hostStore space addr v s).umask = s.umask := by cases space <;> rfl
@[simp] theorem hostStore_rmode (space : Space) (addr : Half) (v : Byte) (s : State) : (hostStore space addr v s).rmode = s.rmode := by cases space <;> rfl
@[simp] theorem hostStore_trate (space : Space) (addr : Half) (v : Byte) (s : State) : (hostStore space addr v s).trate = s.trate := by cases space <;> rfl
@[simp] theorem hostStore_ten (space : Space) (addr : Half) (v : Byte) (s : State) : (hostStore space addr v s).ten = s.ten := by cases space <;> rfl
@[simp] theorem hostStore_cfgWritten (space : Space) (addr : Half) (v : Byte) (s : State) : (hostStore space addr v s).cfgWritten = s.cfgWritten := by cases space <;> rfl
@[simp] theorem hostStore_pLo (space : Space) (addr : Half) (v : Byte) (s : State) : (hostStore space addr v s).pLo = s.pLo := by cases space <;> rfl
@[simp] theorem hostStore_pHi (space : Space) (addr : Half) (v : Byte) (s : State) : (hostStore space addr v s).pHi = s.pHi := by cases space <;> rfl
@[simp] theorem hostStore_ram (space : Space) (addr : Half) (v : Byte) (s : State) : (hostStore space addr v s).ram = if space = .ram then writeByte s.ram addr.toNat v else s.ram := by cases space <;> rfl
@[simp] theorem hostStore_rom (space : Space) (addr : Half) (v : Byte) (s : State) : (hostStore space addr v s).rom = if space = .rom then writeByte s.rom addr.toNat v else s.rom := by cases space <;> rfl
@[simp] theorem hostStore_trace (space : Space) (addr : Half) (v : Byte) (s : State) : (hostStore space addr v s).trace = s.trace := by cases space <;> rfl
@[simp] theorem hostStore_draws (space : Space) (addr : Half) (v : Byte) (s : State) : (hostStore space addr v s).draws = s.draws := by cases space <;> rfl
@[simp] theorem hostStore_inputs (space : Space) (addr : Half) (v : Byte) (s : State) : (hostStore space addr v s).inputs = s.inputs := by cases space <;> rfl


/-! ### `hostFree` -/
@[simp] theorem hostFree_cfg (space : Space) (addr : Half) (s : State) : (hostFree space addr s).cfg = s.cfg := by cases space <;> rfl
@[simp] theorem hostFree_ctxs (space : Space) (addr : Half) (s : State) : (hostFree space addr s).ctxs = s.ctxs := by cases space <;> rfl
@[simp] theorem hostFree_cnt (space : Space) (addr : Half) (s : State) : (hostFree space addr s).cnt = s.cnt := by cases space <;> rfl
@[simp] theorem hostFree_chsel (space : Space) (addr : Half) (s : State) : (hostFree space addr s).chsel = s.chsel := by cases space <;> rfl
@[simp] theorem hostFree_mixm (space : Space) (addr : Half) (s : State) : (hostFree space addr s).mixm = s.mixm := by cases space <;> rfl
@[simp] theorem hostFree_mixs (space : Space) (addr : Half) (s : State) : (hostFree space addr s).mixs = s.mixs := by cases space <;> rfl
@[simp] theorem hostFree_offset (space : Space) (addr : Half) (s : State) : (hostFree space addr s).offset = s.offset := by cases space <;> rfl
@[simp] theorem hostFree_lmask (space : Space) (addr : Half) (s : State) : (hostFree space addr s).lmask = s.lmask := by cases space <;> rfl
@[simp] theorem hostFree_umask (space : Space) (addr : Half) (s : State) : (hostFree space addr s).umask = s.umask := by cases space <;> rfl
@[simp] theorem hostFree_rmode (space : Space) (addr : Half) (s : State) : (hostFree space addr s).rmode = s.rmode := by cases space <;> rfl
@[simp] theorem hostFree_trate (space : Space) (addr : Half) (s : State) : (hostFree space addr s).trate = s.trate := by cases space <;> rfl
@[simp] theorem hostFree_ten (space : Space) (addr : Half) (s : State) : (hostFree space addr s).ten = s.ten := by cases space <;> rfl
@[simp] theorem hostFree_cfgWritten (space : Space) (addr : Half) (s : State) : (hostFree space addr s).cfgWritten = s.cfgWritten := by cases space <;> rfl
@[simp] theorem hostFree_pLo (space : Space) (addr : Half) (s : State) : (hostFree space addr s).pLo = s.pLo := by cases space <;> rfl
@[simp] theorem hostFree_pHi (space : Space) (addr : Half) (s : State) : (hostFree space addr s).pHi = s.pHi := by cases space <;> rfl
@[simp] theorem hostFree_ram (space : Space) (addr : Half) (s : State) : (hostFree space addr s).ram = if space = .ram then eraseByte s.ram addr.toNat else s.ram := by cases space <;> rfl
@[simp] theorem hostFree_rom (space : Space) (addr : Half) (s : State) : (hostFree space addr s).rom = if space = .rom then eraseByte s.rom addr.toNat else s.rom := by cases space <;> rfl
@[simp] theorem hostFree_trace (space : Space) (addr : Half) (s : State) : (hostFree space addr s).trace = s.trace := by cases space <;> rfl
@[simp] theorem hostFree_draws (space : Space) (addr : Half) (s : State) : (hostFree space addr s).draws = s.draws := by cases space <;> rfl
@[simp] theorem hostFree_inputs (space : Space) (addr : Half) (s : State) : (hostFree space addr s).inputs = s.inputs := by cases space <;> rfl


/-! ### `bracket` -/

@[simp] theorem bracket_ten (update : State → State) (s : State) : (bracket update s).ten = 1 := rfl

/-- The bracket of an update is the update with `TEN` at 1, for the two updates the block brackets. -/
theorem bracket_emptyChannels (s : State) :
    bracket emptyChannels s = { emptyChannels s with ten := 1 } := rfl

theorem bracket_installChannels (count : BitVec 8) (chs : Vector CtxIdx 5) (s : State) :
    bracket (installChannels count chs) s = { installChannels count chs s with ten := 1 } := rfl

end Sys2Proof.Laws
end

