-- ==== Sys2Proof/Laws/Ops.lean ====
section
/-!
SUPPORT. What each named operation over contexts, memories and ports can do, said once.
-/

namespace Sys2Proof.Laws

open Sys2Proof.Machine

/-- A context reads as the one just set. -/
@[simp] theorem ctx_setCtx_same (s : State) (w : CtxIdx) (x : Ctx) : (s.setCtx w x).ctx w = x := by
  simp [State.ctx, State.setCtx]

/-- Setting a context leaves every other one. -/
theorem ctx_setCtx_ne (s : State) {w v : CtxIdx} (x : Ctx) (h : v ≠ w) :
    (s.setCtx w x).ctx v = s.ctx v := by
  have : w.toNat ≠ v.toNat := fun e => h (BitVec.eq_of_toNat_eq e.symm)
  simp [State.ctx, State.setCtx, Vector.getElem_set_ne, this]

theorem ctx_setCtx (s : State) (w v : CtxIdx) (x : Ctx) :
    (s.setCtx w x).ctx v = if v = w then x else s.ctx v := by
  split
  · rename_i h; subst h; exact ctx_setCtx_same s v x
  · rename_i h; exact ctx_setCtx_ne s x h

/-- A context depends on the context file alone. -/
theorem ctx_congr {s t : State} (h : t.ctxs = s.ctxs) (w : CtxIdx) : t.ctx w = s.ctx w := by
  simp only [State.ctx, h]

/-- Two states with the same contexts have the same context file. -/
theorem ctxs_ext {s t : State} (h : ∀ w, t.ctx w = s.ctx w) : t.ctxs = s.ctxs := by
  apply Vector.ext
  intro i hi
  have := h (BitVec.ofNat 3 i)
  have hm : i % 8 = i := Nat.mod_eq_of_lt hi
  simpa only [State.ctx, BitVec.toNat_ofNat, Nat.reducePow, hm] using this

@[simp] theorem ctx_memRead (s : State) (space : Space) (addr : Half) (w : CtxIdx) :
    (s.memRead space addr).ctx w = s.ctx w := rfl

@[simp] theorem ctx_ioRead (s : State) (p : Port) (w : CtxIdx) : (s.ioRead p).ctx w = s.ctx w := rfl

@[simp] theorem ctx_ioWrite (s : State) (p : Port) (v : Byte) (w : CtxIdx) :
    (s.ioWrite p v).ctx w = s.ctx w := ctx_congr (by simp) w

@[simp] theorem ctx_setPort (s : State) (p : Port) (v : Byte) (w : CtxIdx) :
    (s.setPort p v).ctx w = s.ctx w := ctx_congr (by simp) w

@[simp] theorem ctx_hostStore (space : Space) (addr : Half) (v : Byte) (s : State) (w : CtxIdx) :
    (hostStore space addr v s).ctx w = s.ctx w := ctx_congr (by simp) w

@[simp] theorem ctx_hostFree (space : Space) (addr : Half) (s : State) (w : CtxIdx) :
    (hostFree space addr s).ctx w = s.ctx w := ctx_congr (by simp) w

@[simp] theorem ctx_bracket_emptyChannels (s : State) (w : CtxIdx) :
    (bracket emptyChannels s).ctx w = s.ctx w := rfl

@[simp] theorem ctx_bracket_installChannels (count : BitVec 8) (chs : Vector CtxIdx 5) (s : State)
    (w : CtxIdx) : (bracket (installChannels count chs) s).ctx w = s.ctx w := rfl

@[simp] theorem ctx_configureEngine (off : BitVec 3) (mode : BitVec 1) (rate : BitVec 8) (s : State)
    (w : CtxIdx) : (configureEngine off mode rate s).ctx w = s.ctx w := rfl

@[simp] theorem ctx_resetBlock (s : State) (w : CtxIdx) : (resetBlock s).ctx w = Ctx.reset := by
  simp [State.ctx]

/-- A memory depends on the two memory fields alone. -/
theorem memory_congr {s t : State} (ha : t.ram = s.ram) (ho : t.rom = s.rom) (space : Space) :
    t.memory space = s.memory space := by
  cases space
  · exact ha
  · exact ho

@[simp] theorem memory_setMemory (s : State) (space sp : Space) (m : Memory) :
    (s.setMemory space m).memory sp = if sp = space then m else s.memory sp := by
  cases space <;> cases sp <;> rfl

/-- A fetch of a provided byte yields it, and draws no free value. -/
theorem sampleByte_provided {s : State} {space : Space} {addr : Half} {v : Byte}
    (h : readByte (s.memory space) addr.toNat = some v) :
    s.sampleByte space addr = v ∧ s.drawsAfter space addr = s.draws := by
  simp [State.sampleByte, State.drawsAfter, h]

/-- A fetch of a byte nobody provides yields the next free value and counts it. -/
theorem sampleByte_free {s : State} {space : Space} {addr : Half}
    (h : readByte (s.memory space) addr.toNat = none) :
    s.sampleByte space addr = Config.freeByte s.draws ∧ s.drawsAfter space addr = s.draws + 1 := by
  simp [State.sampleByte, State.drawsAfter, h]

/-- A store of the host is what a read of that byte gives, and every other byte is as it was. -/
theorem hostStore_read (space : Space) (addr : Half) (v : Byte) (s : State) (sp : Space) (a : Nat) :
    readByte ((hostStore space addr v s).memory sp) a =
      if sp = space ∧ a = addr.toNat then some v else readByte (s.memory sp) a := by
  unfold hostStore
  rw [memory_setMemory]
  by_cases hs : sp = space
  · subst hs
    by_cases ha : a = addr.toNat
    · subst ha; simp
    · simp [ha, readByte_writeByte_ne]
  · simp [hs]

/-- A freed byte has no value, and every other byte is as it was. -/
theorem hostFree_read (space : Space) (addr : Half) (s : State) (sp : Space) (a : Nat) :
    readByte ((hostFree space addr s).memory sp) a =
      if sp = space ∧ a = addr.toNat then none else readByte (s.memory sp) a := by
  unfold hostFree
  rw [memory_setMemory]
  by_cases hs : sp = space
  · subst hs
    by_cases ha : a = addr.toNat
    · subst ha; simp
    · simp [ha, readByte_eraseByte_ne]
  · simp [hs]

/-- Both memories are in canonical form at reset. -/
theorem reset_memory_wf (space : Space) : Memory.wf (State.reset.memory space) := by
  cases space <;> exact wf_nil

/-- A store of the host keeps the canonical form of both memories. -/
theorem hostStore_wf {s : State} (h : ∀ sp, Memory.wf (s.memory sp)) (space : Space) (addr : Half) (v : Byte)
    (sp : Space) : Memory.wf ((hostStore space addr v s).memory sp) := by
  unfold hostStore
  rw [memory_setMemory]
  split
  · exact wf_writeByte (h _) addr v
  · exact h sp

/-- An invalidation keeps the canonical form of both memories. -/
theorem hostFree_wf {s : State} (h : ∀ sp, Memory.wf (s.memory sp)) (space : Space) (addr : Half)
    (sp : Space) : Memory.wf ((hostFree space addr s).memory sp) := by
  unfold hostFree
  rw [memory_setMemory]
  split
  · exact wf_eraseByte (h _) addr.toNat
  · exact h sp

end Sys2Proof.Laws
end

