-- ==== Sys2Proof/Laws/Tick.lean ====
section
/-!
SUPPORT. What the channel loop, `PACK` and a tick with channels can do, said once.
-/

namespace Sys2Proof.Laws

open Sys2Proof.Machine

/-! ### Fetch, step, one channel -/

@[simp] theorem ctx_fetch (w v : CtxIdx) (s : State) : (fetch w s).ctx v = s.ctx v := rfl

/-- `STEP1(w)` replaces `W[w]` and no other context. -/
theorem ctx_step1 (w v : CtxIdx) (s : State) :
    (step1 w s).ctx v = if v = w then stepCtx (s.ctx v) else s.ctx v := by
  unfold step1
  rw [ctx_setCtx]
  split
  · rename_i h; rw [h]
  · rfl

/-- `STEP1` keeps `BUF`, `LEN`, `STEP` and what has been written, however often it is applied. -/
theorem stepCtx_keeps (x : Ctx) :
    (stepCtx x).buf = x.buf ∧ (stepCtx x).len = x.len ∧ (stepCtx x).step = x.step ∧
      (stepCtx x).posWritten = x.posWritten ∧ (stepCtx x).stepWritten = x.stepWritten :=
  ⟨rfl, rfl, rfl, rfl, rfl⟩

theorem stepCtx_iterate_keeps (n : Nat) (x : Ctx) :
    (stepCtx^[n] x).buf = x.buf ∧ (stepCtx^[n] x).len = x.len ∧ (stepCtx^[n] x).step = x.step ∧
      (stepCtx^[n] x).posWritten = x.posWritten ∧ (stepCtx^[n] x).stepWritten = x.stepWritten := by
  induction n generalizing x with
  | zero => exact ⟨rfl, rfl, rfl, rfl, rfl⟩
  | succ n ih => exact ih (stepCtx x)

/-! ### The channel loop: what it leaves alone -/

@[simp] theorem visitAll_cfg (ws : List CtxIdx) (sum : Half) (s : State) :
    (visitAll ws sum s).2.cfg = s.cfg := by
  induction ws generalizing sum s with
  | nil => rfl
  | cons w ws ih => exact ih _ _

@[simp] theorem visitAll_cnt (ws : List CtxIdx) (sum : Half) (s : State) :
    (visitAll ws sum s).2.cnt = s.cnt := by
  induction ws generalizing sum s with
  | nil => rfl
  | cons w ws ih => exact ih _ _

@[simp] theorem visitAll_chsel (ws : List CtxIdx) (sum : Half) (s : State) :
    (visitAll ws sum s).2.chsel = s.chsel := by
  induction ws generalizing sum s with
  | nil => rfl
  | cons w ws ih => exact ih _ _

@[simp] theorem visitAll_mixm (ws : List CtxIdx) (sum : Half) (s : State) :
    (visitAll ws sum s).2.mixm = s.mixm := by
  induction ws generalizing sum s with
  | nil => rfl
  | cons w ws ih => exact ih _ _

@[simp] theorem visitAll_mixs (ws : List CtxIdx) (sum : Half) (s : State) :
    (visitAll ws sum s).2.mixs = s.mixs := by
  induction ws generalizing sum s with
  | nil => rfl
  | cons w ws ih => exact ih _ _

@[simp] theorem visitAll_offset (ws : List CtxIdx) (sum : Half) (s : State) :
    (visitAll ws sum s).2.offset = s.offset := by
  induction ws generalizing sum s with
  | nil => rfl
  | cons w ws ih => exact ih _ _

@[simp] theorem visitAll_lmask (ws : List CtxIdx) (sum : Half) (s : State) :
    (visitAll ws sum s).2.lmask = s.lmask := by
  induction ws generalizing sum s with
  | nil => rfl
  | cons w ws ih => exact ih _ _

@[simp] theorem visitAll_umask (ws : List CtxIdx) (sum : Half) (s : State) :
    (visitAll ws sum s).2.umask = s.umask := by
  induction ws generalizing sum s with
  | nil => rfl
  | cons w ws ih => exact ih _ _

@[simp] theorem visitAll_rmode (ws : List CtxIdx) (sum : Half) (s : State) :
    (visitAll ws sum s).2.rmode = s.rmode := by
  induction ws generalizing sum s with
  | nil => rfl
  | cons w ws ih => exact ih _ _

@[simp] theorem visitAll_trate (ws : List CtxIdx) (sum : Half) (s : State) :
    (visitAll ws sum s).2.trate = s.trate := by
  induction ws generalizing sum s with
  | nil => rfl
  | cons w ws ih => exact ih _ _

@[simp] theorem visitAll_ten (ws : List CtxIdx) (sum : Half) (s : State) :
    (visitAll ws sum s).2.ten = s.ten := by
  induction ws generalizing sum s with
  | nil => rfl
  | cons w ws ih => exact ih _ _

@[simp] theorem visitAll_cfgWritten (ws : List CtxIdx) (sum : Half) (s : State) :
    (visitAll ws sum s).2.cfgWritten = s.cfgWritten := by
  induction ws generalizing sum s with
  | nil => rfl
  | cons w ws ih => exact ih _ _

@[simp] theorem visitAll_pLo (ws : List CtxIdx) (sum : Half) (s : State) :
    (visitAll ws sum s).2.pLo = s.pLo := by
  induction ws generalizing sum s with
  | nil => rfl
  | cons w ws ih => exact ih _ _

@[simp] theorem visitAll_pHi (ws : List CtxIdx) (sum : Half) (s : State) :
    (visitAll ws sum s).2.pHi = s.pHi := by
  induction ws generalizing sum s with
  | nil => rfl
  | cons w ws ih => exact ih _ _

@[simp] theorem visitAll_ram (ws : List CtxIdx) (sum : Half) (s : State) :
    (visitAll ws sum s).2.ram = s.ram := by
  induction ws generalizing sum s with
  | nil => rfl
  | cons w ws ih => exact ih _ _

@[simp] theorem visitAll_rom (ws : List CtxIdx) (sum : Half) (s : State) :
    (visitAll ws sum s).2.rom = s.rom := by
  induction ws generalizing sum s with
  | nil => rfl
  | cons w ws ih => exact ih _ _

@[simp] theorem visitAll_inputs (ws : List CtxIdx) (sum : Half) (s : State) :
    (visitAll ws sum s).2.inputs = s.inputs := by
  induction ws generalizing sum s with
  | nil => rfl
  | cons w ws ih => exact ih _ _

/-! ### The channel loop: what it does -/

/-- Each context is stepped once per listing (42_tick_mix_output.md R174). -/
theorem ctx_visitAll (ws : List CtxIdx) (sum : Half) (s : State) (v : CtxIdx) :
    (visitAll ws sum s).2.ctx v = stepCtx^[ws.count v] (s.ctx v) := by
  induction ws generalizing sum s with
  | nil => rfl
  | cons w ws ih =>
    rw [visitAll, ih]
    simp only [visit, ctx_step1, ctx_fetch]
    by_cases h : v = w
    · subst h; simp [Function.iterate_succ_apply]
    · simp [h, Ne.symm h]

theorem foundCtx_cons (s : State) (w : CtxIdx) (ws : List CtxIdx) (i : Nat) :
    foundCtx s (w :: ws) (i + 1) = foundCtx (visit w 0 s).2 ws i := by
  simp only [foundCtx, visit, ctx_step1, ctx_fetch, List.getD_cons_succ, List.take_succ_cons]
  by_cases h : ws.getD i 0 = w
  · rw [if_pos h, h, List.count_cons_self, Function.iterate_succ_apply]
  · rw [if_neg h, List.count_cons_of_ne (Ne.symm h)]

/-- The loop reads one byte per channel, in order, at the address the channel's context gives when it is visited; it
adds the bytes; a provided byte is what is read; a free value is drawn only where some byte is not provided. -/
theorem visitAll_reads (ws : List CtxIdx) (sum : Half) (s : State) :
    ∃ samples : List Byte, samples.length = ws.length ∧
      (visitAll ws sum s).1 = sum + BitVec.ofNat 16 (samples.map BitVec.toNat).sum ∧
      (visitAll ws sum s).2.trace = s.trace ++ (List.range ws.length).map (fun i =>
        Access.memRead (spaceOf s.rmode) (sampleAddr (foundCtx s ws i)) (samples.getD i 0)) ∧
      (∀ i < ws.length, ∀ v,
        readByte (s.memory (spaceOf s.rmode)) (sampleAddr (foundCtx s ws i)).toNat = some v →
          samples.getD i 0 = v) ∧
      ((∀ i < ws.length,
        (readByte (s.memory (spaceOf s.rmode)) (sampleAddr (foundCtx s ws i)).toNat).isSome = true) →
          (visitAll ws sum s).2.draws = s.draws) := by
  induction ws generalizing sum s with
  | nil => exact ⟨[], rfl, by simp [visitAll], by simp [visitAll], by simp, by simp [visitAll]⟩
  | cons w ws ih =>
    obtain ⟨bs, hlen, hsum, htrace, hread, hdraw⟩ := ih (visit w sum s).1 (visit w sum s).2
    have hmode : (visit w sum s).2.rmode = s.rmode := rfl
    have hmem : (visit w sum s).2.memory = s.memory := by funext sp; cases sp <;> rfl
    have hvisit : ∀ i, foundCtx (visit w sum s).2 ws i = foundCtx s (w :: ws) (i + 1) :=
      fun i => (foundCtx_cons s w ws i).symm
    have hfirst : foundCtx s (w :: ws) 0 = s.ctx w := rfl
    refine ⟨fetchByte w s :: bs, by simp [hlen], ?_, ?_, ?_, ?_⟩
    · rw [visitAll, hsum]
      simp only [visit, List.map_cons, List.sum_cons, BitVec.ofNat_add, BitVec.add_assoc]
      congr 2
      exact BitVec.eq_of_toNat_eq (by simp)
    · rw [visitAll, htrace]
      simp only [hmode, hvisit, List.length_cons, List.range_succ_eq_map, List.map_cons, List.map_map,
        Function.comp_def, List.getD_cons_zero, List.getD_cons_succ, hfirst]
      simp [visit, step1, fetch, fetchByte]
    · intro i hi v hv
      cases i with
      | zero => exact (sampleByte_provided hv).1
      | succ i =>
        refine hread i (by simpa using hi) v ?_
        rw [hmode, hmem, hvisit]; exact hv
    · intro hall
      rw [visitAll, hdraw ?_]
      · obtain ⟨v, hv⟩ := Option.isSome_iff_exists.1 (hall 0 (by simp))
        exact (sampleByte_provided hv).2
      · intro i hi
        rw [hmode, hmem, hvisit]
        exact hall (i + 1) (by simpa using hi)

/-! ### `PACK` -/

/-- `PACK` writes the two ports, `P_LO` first, and is observed as two reads and two writes (R182, R183). -/
theorem pack_eq (out : Byte) (s : State) :
    pack out s = { s with
      pLo := packLo s.lmask s.offset out s.pLo
      pHi := packHi s.umask s.offset out s.pHi
      trace := s.trace ++ [.ioRead .lo s.pLo, .ioWrite .lo (packLo s.lmask s.offset out s.pLo),
        .ioRead .hi s.pHi, .ioWrite .hi (packHi s.umask s.offset out s.pHi)] } := by
  simp [pack, State.ioRead, State.ioWrite, State.setPort, State.port]

@[simp] theorem ctx_pack (out : Byte) (s : State) (w : CtxIdx) : (pack out s).ctx w = s.ctx w := by
  rw [pack_eq]; rfl

@[simp] theorem pack_cfg (out : Byte) (s : State) : (pack out s).cfg = s.cfg := by rw [pack_eq]

@[simp] theorem pack_cnt (out : Byte) (s : State) : (pack out s).cnt = s.cnt := by rw [pack_eq]

@[simp] theorem pack_chsel (out : Byte) (s : State) : (pack out s).chsel = s.chsel := by rw [pack_eq]

@[simp] theorem pack_mixm (out : Byte) (s : State) : (pack out s).mixm = s.mixm := by rw [pack_eq]

@[simp] theorem pack_mixs (out : Byte) (s : State) : (pack out s).mixs = s.mixs := by rw [pack_eq]

@[simp] theorem pack_offset (out : Byte) (s : State) : (pack out s).offset = s.offset := by rw [pack_eq]

@[simp] theorem pack_lmask (out : Byte) (s : State) : (pack out s).lmask = s.lmask := by rw [pack_eq]

@[simp] theorem pack_umask (out : Byte) (s : State) : (pack out s).umask = s.umask := by rw [pack_eq]

@[simp] theorem pack_rmode (out : Byte) (s : State) : (pack out s).rmode = s.rmode := by rw [pack_eq]

@[simp] theorem pack_trate (out : Byte) (s : State) : (pack out s).trate = s.trate := by rw [pack_eq]

@[simp] theorem pack_ten (out : Byte) (s : State) : (pack out s).ten = s.ten := by rw [pack_eq]

@[simp] theorem pack_cfgWritten (out : Byte) (s : State) : (pack out s).cfgWritten = s.cfgWritten := by rw [pack_eq]

@[simp] theorem pack_ram (out : Byte) (s : State) : (pack out s).ram = s.ram := by rw [pack_eq]

@[simp] theorem pack_rom (out : Byte) (s : State) : (pack out s).rom = s.rom := by rw [pack_eq]

@[simp] theorem pack_inputs (out : Byte) (s : State) : (pack out s).inputs = s.inputs := by rw [pack_eq]

@[simp] theorem pack_draws (out : Byte) (s : State) : (pack out s).draws = s.draws := by rw [pack_eq]

@[simp] theorem pack_ctxs (out : Byte) (s : State) : (pack out s).ctxs = s.ctxs := by rw [pack_eq]

/-! ### A tick with channels -/

/-- Each context is stepped once per listing. -/
theorem ctx_playTick (s : State) (w : CtxIdx) :
    (playTick s).ctx w = stepCtx^[(visited s).count w] (s.ctx w) := by
  simp [playTick, ctx_visitAll]

@[simp] theorem playTick_cfg (s : State) : (playTick s).cfg = s.cfg := by simp [playTick]

@[simp] theorem playTick_cnt (s : State) : (playTick s).cnt = s.cnt := by simp [playTick]

@[simp] theorem playTick_chsel (s : State) : (playTick s).chsel = s.chsel := by simp [playTick]

@[simp] theorem playTick_mixm (s : State) : (playTick s).mixm = s.mixm := by simp [playTick]

@[simp] theorem playTick_mixs (s : State) : (playTick s).mixs = s.mixs := by simp [playTick]

@[simp] theorem playTick_offset (s : State) : (playTick s).offset = s.offset := by simp [playTick]

@[simp] theorem playTick_lmask (s : State) : (playTick s).lmask = s.lmask := by simp [playTick]

@[simp] theorem playTick_umask (s : State) : (playTick s).umask = s.umask := by simp [playTick]

@[simp] theorem playTick_rmode (s : State) : (playTick s).rmode = s.rmode := by simp [playTick]

@[simp] theorem playTick_trate (s : State) : (playTick s).trate = s.trate := by simp [playTick]

@[simp] theorem playTick_ten (s : State) : (playTick s).ten = s.ten := by simp [playTick]

@[simp] theorem playTick_cfgWritten (s : State) : (playTick s).cfgWritten = s.cfgWritten := by simp [playTick]

@[simp] theorem playTick_ram (s : State) : (playTick s).ram = s.ram := by simp [playTick]

@[simp] theorem playTick_rom (s : State) : (playTick s).rom = s.rom := by simp [playTick]

@[simp] theorem playTick_inputs (s : State) : (playTick s).inputs = s.inputs := by simp [playTick]

end Sys2Proof.Laws
end

