-- ==== Sys2Proof/Laws/Exec.lean ====
section
/-!
SUPPORT. What executing an instruction and taking an input can do, said once each.
-/

namespace Sys2Proof.Laws

open Sys2Proof.Machine

/-! ### Executing one instruction -/

theorem exec_ecfg (off : BitVec 3) (mode : BitVec 1) (rate : BitVec 8) (s : State) :
    exec (.ecfg off mode rate) s =
      .next (if offsetLegal off then configureEngine off mode rate s else s) := rfl

theorem exec_play (count : BitVec 8) (ch0 ch1 ch2 ch3 ch4 : CtxIdx) (s : State) :
    exec (.play count ch0 ch1 ch2 ch3 ch4) s =
      .next (if playRejected s.cfg count #v[ch0, ch1, ch2, ch3, ch4] then bracket emptyChannels s
        else bracket (installChannels count #v[ch0, ch1, ch2, ch3, ch4]) s) := rfl

theorem exec_stop (s : State) : exec .stop s = .next (bracket emptyChannels s) := rfl

theorem exec_wcfg (w : CtxIdx) (buf len step : Half) (s : State) :
    exec (.wcfg w buf len step) s =
      .next (if ctxExists s.cfg w && !lenZero len then s.setCtx w (configuredCtx buf len step) else s) := rfl

theorem exec_wstep (w : CtxIdx) (step : Half) (s : State) :
    exec (.wstep w step) s =
      .next (if ctxExists s.cfg w then s.setCtx w { s.ctx w with step := step, stepWritten := true }
        else s) := rfl

theorem exec_tick (s : State) :
    exec .tick s = .next (if ticksDisabled s then s else if silent s then s else playTick s) := rfl

/-- Everything an instruction can do: leave the state, configure the engine, empty or install the channel list,
write one context, or perform a tick with channels. -/
theorem exec_cases {i : Instr} {s t : State} (h : exec i s = .next t) :
    t = s ∨
    (∃ off mode rate, i = .ecfg off mode rate ∧ offsetLegal off = true ∧
      t = configureEngine off mode rate s) ∨
    (((∃ count ch0 ch1 ch2 ch3 ch4, i = .play count ch0 ch1 ch2 ch3 ch4) ∨ i = .stop) ∧
      t = bracket emptyChannels s) ∨
    (∃ count ch0 ch1 ch2 ch3 ch4, i = .play count ch0 ch1 ch2 ch3 ch4 ∧
      playRejected s.cfg count #v[ch0, ch1, ch2, ch3, ch4] = false ∧
      t = bracket (installChannels count #v[ch0, ch1, ch2, ch3, ch4]) s) ∨
    (∃ w buf len step, i = .wcfg w buf len step ∧ ctxExists s.cfg w = true ∧ lenZero len = false ∧
      t = s.setCtx w (configuredCtx buf len step)) ∨
    (∃ w step, i = .wstep w step ∧ ctxExists s.cfg w = true ∧
      t = s.setCtx w { s.ctx w with step := step, stepWritten := true }) ∨
    (i = .tick ∧ ticksDisabled s = false ∧ silent s = false ∧ t = playTick s) := by
  cases i with
  | ecfg off mode rate =>
    rw [exec_ecfg] at h
    split at h <;> cases h
    · exact .inr (.inl ⟨off, mode, rate, rfl, ‹_›, rfl⟩)
    · exact .inl rfl
  | play count ch0 ch1 ch2 ch3 ch4 =>
    rw [exec_play] at h
    split at h <;> cases h
    · exact .inr (.inr (.inl ⟨.inl ⟨_, _, _, _, _, _, rfl⟩, rfl⟩))
    · exact .inr (.inr (.inr (.inl ⟨_, _, _, _, _, _, rfl, eq_false_of_ne_true ‹_›, rfl⟩)))
  | stop =>
    cases h
    exact .inr (.inr (.inl ⟨.inr rfl, rfl⟩))
  | wcfg w buf len step =>
    rw [exec_wcfg] at h
    split at h <;> cases h
    · rename_i hc
      simp only [Bool.and_eq_true, Bool.not_eq_true'] at hc
      exact .inr (.inr (.inr (.inr (.inl ⟨_, _, _, _, rfl, hc.1, hc.2, rfl⟩))))
    · exact .inl rfl
  | wstep w step =>
    rw [exec_wstep] at h
    split at h <;> cases h
    · exact .inr (.inr (.inr (.inr (.inr (.inl ⟨_, _, rfl, ‹_›, rfl⟩)))))
    · exact .inl rfl
  | tick =>
    rw [exec_tick] at h
    split at h
    · cases h; exact .inl rfl
    · split at h <;> cases h
      · exact .inl rfl
      · exact .inr (.inr (.inr (.inr (.inr (.inr
          ⟨rfl, eq_false_of_ne_true ‹_›, eq_false_of_ne_true ‹_›, rfl⟩)))))

/-! ### Taking one input -/

theorem step_idle {s : State} (h : s.inputs = []) : step s = .next s := by
  simp [step, takeInput, h]

theorem step_event {s : State} {e : Event} {rest : List Input} (h : s.inputs = .event e :: rest) :
    step s = runDecoded (decode e) { s with inputs := rest } := by
  simp [step, takeInput, h]

theorem step_both {s : State} {c : CmdWord} {rest : List Input}
    (h : s.inputs = .commandAndTick c :: rest) :
    step s = runDecoded (decode (.command c)) { s with inputs := .event (.tick 1) :: rest } := by
  simp [step, takeInput, h]

theorem step_hostPort {s : State} {p : Port} {v : Byte} {rest : List Input}
    (h : s.inputs = .hostPort p v :: rest) :
    step s = .next (State.setPort { s with inputs := rest } p v) := by
  simp [step, takeInput, h]

theorem step_hostStore {s : State} {space : Space} {addr : Half} {v : Byte} {rest : List Input}
    (h : s.inputs = .hostStore space addr v :: rest) :
    step s = .next (hostStore space addr v { s with inputs := rest }) := by
  simp [step, takeInput, h]

theorem step_hostFree {s : State} {space : Space} {addr : Half} {rest : List Input}
    (h : s.inputs = .hostFree space addr :: rest) :
    step s = .next (hostFree space addr { s with inputs := rest }) := by
  simp [step, takeInput, h]

theorem step_reset {s : State} {rest : List Input} (h : s.inputs = .reset :: rest) :
    step s = .next (resetBlock { s with inputs := rest }) := by
  simp [step, takeInput, h]

/-- A decoded event that gives a next state leaves the state (a reserved word) or is the instruction's execution. -/
theorem runDecoded_cases {d : Except DecodeError Instr} {s t : State} (h : runDecoded d s = .next t) :
    t = s ∨ ∃ i, d = .ok i ∧ exec i s = .next t := by
  cases d with
  | error e => exact .inl (by simpa [runDecoded] using h.symm)
  | ok i => exact .inr ⟨i, rfl, h⟩

/-- Everything a step can do: take an input that is no instruction and change nothing else, execute an instruction, or
perform a store of the host, an invalidation, or the reset. -/
theorem step_cases {s t : State} (h : step s = .next t) :
    (t = { s with inputs := t.inputs }) ∨
    (∃ i rest, nextInstr s = some i ∧ exec i { s with inputs := rest } = .next t) ∨
    (∃ p v rest, s.inputs = .hostPort p v :: rest ∧ t = State.setPort { s with inputs := rest } p v) ∨
    (∃ space addr v rest, s.inputs = .hostStore space addr v :: rest ∧
      t = hostStore space addr v { s with inputs := rest }) ∨
    (∃ space addr rest, s.inputs = .hostFree space addr :: rest ∧
      t = hostFree space addr { s with inputs := rest }) ∨
    (∃ rest, s.inputs = .reset :: rest ∧ t = resetBlock { s with inputs := rest }) := by
  rcases hs : s.inputs with _ | ⟨i, rest⟩
  · rw [step_idle hs] at h
    cases h
    exact .inl rfl
  · cases i with
    | event e =>
      rw [step_event hs] at h
      rcases runDecoded_cases h with rfl | ⟨i, hd, hi⟩
      · exact .inl rfl
      · exact .inr (.inl ⟨i, rest, by simp [nextInstr, hs, hd, Except.toOption], hi⟩)
    | commandAndTick c =>
      rw [step_both hs] at h
      rcases runDecoded_cases h with rfl | ⟨i, hd, hi⟩
      · exact .inl rfl
      · have hc : decodeCommand c = .ok i := hd
        exact .inr (.inl ⟨i, _, by simp [nextInstr, hs, hc, Except.toOption], hi⟩)
    | hostPort p v =>
      rw [step_hostPort hs] at h
      cases h
      exact .inr (.inr (.inl ⟨_, _, _, rfl, rfl⟩))
    | hostStore space addr v =>
      rw [step_hostStore hs] at h
      cases h
      exact .inr (.inr (.inr (.inl ⟨_, _, _, _, rfl, rfl⟩)))
    | hostFree space addr =>
      rw [step_hostFree hs] at h
      cases h
      exact .inr (.inr (.inr (.inr (.inl ⟨_, _, _, rfl, rfl⟩))))
    | reset =>
      rw [step_reset hs] at h
      cases h
      exact .inr (.inr (.inr (.inr (.inr ⟨_, rfl, rfl⟩))))

end Sys2Proof.Laws
end

