-- ==== Sys2Proof/Laws/Operands.lean ====
section
/-!
SUPPORT. What each condition and each computed value says, in natural numbers.
-/

namespace Sys2Proof.Laws

open Sys2Proof.Machine

/-! ### Conditions -/

theorem offsetLegal_iff (off : BitVec 3) : offsetLegal off = true ↔ 2 ≤ off.toNat ∧ off.toNat ≤ 6 := by
  simp [offsetLegal]

theorem ctxExists_iff (c : Config) (w : CtxIdx) : ctxExists c w = true ↔ w.toNat < c.nw := by
  simp [ctxExists]

theorem lenZero_eq_false_iff (len : Half) : lenZero len = false ↔ 1 ≤ len.toNat := by
  simp only [lenZero, beq_eq_false_iff_ne, ne_eq, ← BitVec.toNat_inj]
  simp
  omega

theorem ticksDisabled_iff (s : State) : ticksDisabled s = true ↔ s.ten = 0 := by simp [ticksDisabled]

theorem silent_iff (s : State) : silent s = true ↔ s.cnt = 0 := by simp [silent]

/-- `PLAY` is accepted exactly when the count is at most 5 and every visited index names a context. -/
theorem playRejected_eq_false_iff (c : Config) (count : BitVec 8) (ch0 ch1 ch2 ch3 ch4 : CtxIdx) :
    playRejected c count #v[ch0, ch1, ch2, ch3, ch4] = false ↔
      count.toNat ≤ 5 ∧ ∀ w ∈ [ch0, ch1, ch2, ch3, ch4].take count.toNat, w.toNat < c.nw := by
  simp [playRejected, countTooLarge, visitsMissing, listedChannels, ctxExists]

/-! ### Masks -/

theorem lowerMask_toNat {off : BitVec 3} : (lowerMask off).toNat = 2 ^ off.toNat - 1 := by
  revert off
  decide

theorem upperMask_toNat {off : BitVec 3} : (upperMask off).toNat = 0xFF - (lowerMask off).toNat := by
  revert off
  decide

/-! ### Stepping -/

theorem stepSum_toNat (x : Ctx) : (stepSum x).toNat = (x.rem.toNat + x.step.toNat) % 2 ^ 16 := by
  simp [stepSum, BitVec.toNat_add]

theorem stepInc_toNat (x : Ctx) : (stepInc x).toNat = (stepSum x).toNat / 512 := by
  simp [stepInc, Nat.shiftRight_eq_div_pow]

theorem stepLoc_toNat (x : Ctx) : (stepLoc x).toNat = (x.loc.toNat + (stepInc x).toNat) % 2 ^ 16 := by
  simp [stepLoc, BitVec.toNat_add]

theorem stepRem_toNat (x : Ctx) : (stepRem x).toNat = (stepSum x).toNat % 512 := by
  simp [stepRem]

/-- The conditional subtraction never borrows. -/
theorem stepCtx_loc_toNat (x : Ctx) :
    (stepCtx x).loc.toNat =
      if x.len.toNat ≤ (stepLoc x).toNat then (stepLoc x).toNat - x.len.toNat else (stepLoc x).toNat := by
  simp only [stepCtx, pastEnd, decide_eq_true_eq]
  split
  · exact BitVec.toNat_sub_of_le (by simpa [BitVec.le_def])
  · rfl

/-! ### Mixing -/

/-- The mixer in natural numbers: the exact product, divided by a power of two, modulo 256. -/
theorem mix_toNat (m : BitVec 8) (k : BitVec 4) (sum : Half) :
    (mix m k sum).toNat = sum.toNat * m.toNat / 2 ^ k.toNat % 256 := by
  simp [mix, Nat.shiftRight_eq_div_pow]

end Sys2Proof.Laws
end

