-- ==== Sys2Proof/WellFormed.lean ====
section
/-!
DEFINITION. Well-formed (the spec's word: legal, 00_scope.md R12) instructions.

The field widths are in the types, so every `Instr` can be encoded; what is left to check is that each operand lies
in the range its format calls legal (30_encoding.md R82 to R86, R91). An instruction that fails a check still decodes
and still has the effect its rule gives (ignored, or as `STOP`).
-/

namespace Sys2Proof

/-- Every operand lies in its legal range (R82 to R86). -/
def Instr.wellFormed (c : Config) : Instr → Bool
  | .ecfg off _ _ => decide (2 ≤ off.toNat) && decide (off.toNat ≤ 6)
  | .play count ch0 ch1 ch2 ch3 ch4 =>
      decide (count.toNat ≤ 5) &&
        ([ch0, ch1, ch2, ch3, ch4].take count.toNat).all (fun ch => decide (ch.toNat < c.nw))
  | .stop => true
  | .wcfg w _ len _ => decide (w.toNat < c.nw) && decide (1 ≤ len.toNat)
  | .wstep w _ => decide (w.toNat < c.nw)
  | .tick => true

end Sys2Proof
end

