-- ==== Sys2Proof/Tests/Slice0.lean ====
section
/-!
SUPPORT. Tests of the model against the spec's worked examples and vectors, and a witness for the hypotheses of each
statement. Expected values come from spec/ (the rule or the row is named), never from the model.
-/

namespace Sys2Proof.Tests

open Sys2Proof.Machine

/-- The next state of an outcome, if it is one. -/
def nextOf (o : Host.Outcome State Fault Refusal) : Option State :=
  match o with
  | .next t => some t
  | _ => none

/-- What a test looks at in the next state of an outcome. -/
def look {α : Type} (o : Host.Outcome State Fault Refusal) (f : State → α) : Option α := (nextOf o).map f

/-- The waveform of 42 R170's worked example: `(BUF 0x0100, LEN 4, STEP 512, LOC 3, REM 0)`. -/
def wave : Ctx where
  buf := 0x0100
  len := 4
  loc := 3
  rem := 0
  step := 512
  posWritten := true
  stepWritten := true

/-- The state of 42 R170's worked example, with the whole buffer provided. -/
def playing : State :=
  { State.reset with
    ctxs := State.reset.ctxs.set 0 wave
    cnt := 1
    ten := 1
    offset := 4
    lmask := 0x0F
    umask := 0xF0
    cfgWritten := true
    pLo := 0x0F
    pHi := 0xF0
    ram := [(0x0100, 10), (0x0101, 20), (0x0102, 30), (0x0103, 0x80)] }

/-- 42 R174's example: one context listed twice, samples 10, 20, 30, 40, mix pair of two channels. -/
def doubled : State :=
  { playing with
    ctxs := State.reset.ctxs.set 0 { wave with loc := 0 }
    cnt := 2
    mixs := 1
    ram := [(0x0100, 10), (0x0101, 20), (0x0102, 30), (0x0103, 40)] }

/-- A block built with three contexts only. -/
def small : State := { playing with cfg := { Config.default with nw := 3 } }

/-! ### Well-formed instructions: a term each check refuses -/

theorem test_wf_offset_below : Instr.wellFormed Config.default (.ecfg 1 0 0) = false := by decide
theorem test_wf_offset_above : Instr.wellFormed Config.default (.ecfg 7 0 0) = false := by decide
theorem test_wf_count : Instr.wellFormed Config.default (.play 6 0 1 2 3 4) = false := by decide
theorem test_wf_channel : Instr.wellFormed small.cfg (.play 2 0 3 0 0 0) = false := by decide
theorem test_wf_unvisited_channel : Instr.wellFormed small.cfg (.play 1 0 3 0 0 0) = true := by decide
theorem test_wf_length : Instr.wellFormed Config.default (.wcfg 0 0x0100 0 512) = false := by decide
theorem test_wf_wcfg_context : Instr.wellFormed small.cfg (.wcfg 3 0x0100 4 512) = false := by decide
theorem test_wf_wstep_context : Instr.wellFormed small.cfg (.wstep 3 512) = false := by decide
theorem test_wf_legal : Instr.wellFormed Config.default (.ecfg 2 1 255) = true := by decide

/-! ### Decoding: words written out bit by bit from the formats R82 to R87 -/

/-- Format E: op 0001, 44 zeros, rate 00000111, 000, mode 1, 0, off 110. -/
theorem test_decode_ecfg :
    decode (.command 0b0001000000000000000000000000000000000000000000000000011100010110) =
      .ok (.ecfg 6 1 7) := by decide

/-- Format P: op 0010, 0000, count 00000101, 33 zeros, ch4 100, ch3 011, ch2 010, ch1 001, ch0 111. -/
theorem test_decode_play :
    decode (.command 0b0010000000000101000000000000000000000000000000000100011010001111) =
      .ok (.play 5 7 1 2 3 4) := by decide

/-- Format S: op 0011 and 60 zeros. -/
theorem test_decode_stop :
    decode (.command 0b0011000000000000000000000000000000000000000000000000000000000000) = .ok .stop := by
  decide

/-- Format W: op 0100, 0, w 010, 8 zeros, buf 0x0100, len 100, step 512. -/
theorem test_decode_wcfg :
    decode (.command 0b0100001000000000000000010000000000000000011001000000001000000000) =
      .ok (.wcfg 2 0x0100 100 512) := by decide

/-- Format T: op 0101, 0, w 101, 40 zeros, step 0x8001. -/
theorem test_decode_wstep :
    decode (.command 0b0101010100000000000000000000000000000000000000001000000000000001) =
      .ok (.wstep 5 0x8001) := by decide

/-- Format EV. -/
theorem test_decode_tick : decode (.tick 1) = .ok .tick := by decide

/-- 95 rows E11, E13, E14, E16: reserved words. -/
theorem test_decode_reserved :
    decode (.command 0x0000000000000000) = .error (.reservedOp 0) ∧
    decode (.command 0x3000000000000001) = .error (.mustBeZero 3) ∧
    decode (.command 0x1000000000000008) = .error (.mustBeZero 1) ∧
    decode (.command 0x2800000000000000) = .error (.mustBeZero 2) := by decide

/-- opcode_table.json, rows TICK and STOP. -/
theorem test_table_word : decodeTableWord 8 1 = some .tick ∧ decodeTableWord 64 0x3000000000000000 = some .stop := by
  decide

/-! ### One step each -/

/-- 95 E2. -/
theorem test_ecfg_rom :
    look (step (State.reset.withFetchWord 64 0x1000000000000312))
      (fun t => (t.offset, t.lmask, t.umask, t.rmode, t.trate, t.ten)) = some (2, 0x03, 0xFC, 1, 3, 1) := by
  decide

/-- 95 E17: ignored, `TEN` stays 0. -/
theorem test_ecfg_ignored :
    look (step (State.reset.withFetchWord 64 0x1000000000000001)) (fun t => decide (t = State.reset)) =
      some true := by decide

/-- 95 E4. -/
theorem test_play_five :
    look (step (State.reset.withFetchWord 64 0x2005000000004688))
      (fun t => (t.cnt, t.chsel, t.mixm, t.mixs, t.ten)) = some (5, #v[0, 1, 2, 3, 4], 51, 8, 1) := by decide

/-- 95 E5, from a playing state: acts as `STOP`, the mix pair unchanged. -/
theorem test_play_six :
    look (exec (.play 6 0 1 2 3 4) doubled) (fun t => (t.cnt, t.chsel, t.mixm, t.mixs, t.ten)) =
      some (0, #v[0, 0, 0, 0, 0], 1, 1, 1) := by decide

/-- 41 R147's worked example: the mix pair (85, 8) is kept. -/
theorem test_stop_keeps_mix_pair :
    look (exec .stop { playing with cnt := 3, chsel := #v[0, 1, 2, 0, 0], mixm := 85, mixs := 8 })
      (fun t => (t.cnt, t.chsel, t.mixm, t.mixs, t.ten)) = some (0, #v[0, 0, 0, 0, 0], 85, 8, 1) := by decide

/-- 95 E9. -/
theorem test_wcfg :
    look (step (State.reset.withFetchWord 64 0x4200010000640200))
      (fun t => ((t.ctx 2).buf, (t.ctx 2).len, (t.ctx 2).step, (t.ctx 2).loc, (t.ctx 2).rem)) =
        some (0x0100, 100, 512, 0, 0) := by decide

/-- 95 E19: a zero length is ignored. -/
theorem test_wcfg_zero_length :
    look (step (State.reset.withFetchWord 64 0x4000010000000200)) (fun t => decide (t = State.reset)) =
      some true := by decide

/-- 40 R118's worked example, from `W[0] = (b, 100, 512, 42, 7)`. -/
theorem test_wstep_keeps_position :
    look (exec (.wstep 0 768) (playing.setCtx 0 { wave with len := 100, loc := 42, rem := 7 }))
      (fun t => ((t.ctx 0).step, (t.ctx 0).loc, (t.ctx 0).rem, (t.ctx 0).len)) = some (768, 42, 7, 100) := by
  decide

/-- 42 R170's worked example. -/
theorem test_tick_example :
    look (exec .tick playing) (fun t => ((t.ctx 0).loc, (t.ctx 0).rem, t.pLo, t.pHi, t.trace)) =
      some (0, 0, 0x0F, 0xF8, [.memRead .ram 0x0103 0x80, .ioRead .lo 0x0F, .ioWrite .lo 0x0F,
        .ioRead .hi 0xF0, .ioWrite .hi 0xF8]) := by decide

/-- 42 R174's example: the second fetch reads what the first stepping left; `out = 30 >> 1 = 15`. -/
theorem test_tick_listed_twice :
    look (exec .tick doubled) (fun t => ((t.ctx 0).loc, t.pLo, t.pHi)) = some (2, 0xFF, 0xF0) := by decide

/-- 95 T9, T11, T13, T18 and X1 to X4: `(REM, STEP, LOC, LEN)` to `(REM', LOC')`. -/
theorem test_step1_vectors :
    [(511, 511, 9, 10), (511, 5120, 9, 10), (511, 65024, 100, 200), (0, 513, 65534, 65535), (0, 1024, 0, 1),
      (511, 1025, 1, 2), (511, 65535, 3, 200), (0, 1024, 65534, 65535)].map
        (fun v : BitVec 9 × Half × Half × Half =>
          let y := stepCtx { wave with rem := v.1, step := v.2.1, loc := v.2.2.1, len := v.2.2.2 }
          (y.rem, y.loc)) =
      [(510, 0), (511, 9), (511, 27), (1, 0), (0, 1), (0, 2), (510, 3), (0, 0)] := by decide

/-- 95 M9, M11, M12, M22. -/
theorem test_mix_vectors :
    mix 85 8 60 = 19 ∧ mix 85 8 259 = 85 ∧ mix 85 8 515 = 170 ∧ mix 51 8 1275 = 254 := by decide

/-- 95 K1, K8, K9: the ports after `PACK`. -/
theorem test_pack_vectors :
    (packLo 0x03 2 0xB5 0xFF, packHi 0xFC 2 0xB5 0x00) = (0xD7, 0x02) ∧
    (packLo 0x3F 6 0xB5 0x00, packHi 0xC0 6 0xB5 0xFF) = (0x40, 0xED) ∧
    (packLo 0x0F 4 0x13 0xA5, packHi 0xF0 4 0x13 0x5A) = (0x35, 0x51) := by decide

/-- 30 R94, R95 and the listing of 95 P4. -/
theorem test_assemble :
    assemble (.play 1 [1]) = some [.command 0x2001000000000001] ∧
    assemble (.wcfgNative 1 0x0300 100) = some [.command 0x4100030000640200] ∧
    assemble (.tickTimes 2) = some [.tick 1, .tick 1] := by decide

/-- 95 E1 and E9, as listed. -/
theorem test_listing :
    listing (.ecfg 4 0 7) = "ecfg off=4, mode=ram, rate=7" ∧
    listing (.wcfg 2 0x0100 100 512) = "wcfg w2, buf=256, len=100, step=512" ∧
    listing (.play 3 [0, 1, 2]) = "play 3, w0, w1, w2" := by decide

/-- A byte nobody provided is read as the next free value and counted (93 U7). -/
theorem test_free_value_is_drawn :
    fetchByte 0 { playing with ram := [] } = Config.freeByte 0 ∧
      (fetch 0 { playing with ram := [] }).draws = 1 := by
  unfold fetchByte fetch
  exact Sys2Proof.Laws.sampleByte_free (by decide)

/-! ### Witnesses: states and operands that meet the hypotheses of the statements -/

theorem wave_hostBounds : wave.HostBounds := ⟨by decide, by decide, by decide, by decide, by decide⟩

theorem witness_ResetEventRestoresTheResetRegisters :
    ({ playing with inputs := [.reset] } : State).inputs = .reset :: [] := rfl

theorem witness_EncodeOfDecodeIsTheEvent :
    decode (.command 0x20FF000000007FFF) = .ok (.play 255 7 7 7 7 7) ∧ decode (.tick 1) = .ok .tick := by decide

/-- Both kinds of reserved word: a reserved `op`, and one must-be-zero bit too many (95 E11, E13, E15). -/
theorem witness_ReservedWordIsIgnored :
    ∀ c ∈ ([0, 0xF000000000000000, 0x3000000000000001, 0x1000000000010004] : List CmdWord),
      (presentEvent (.command c) playing).inputs = .event (.command c) :: [] ∧
      c &&& 0xFFFFFFFFFFFF00E8 ≠ 0x1000000000000000 ∧ c &&& 0xFF00FFFFFFFF8000 ≠ 0x2000000000000000 ∧
      c &&& 0xFFFFFFFFFFFFFFFF ≠ 0x3000000000000000 ∧ c &&& 0xF8FF000000000000 ≠ 0x4000000000000000 ∧
      c &&& 0xF8FFFFFFFFFF0000 ≠ 0x5000000000000000 := by
  intro c hc
  fin_cases hc <;> decide

theorem witness_StepExecutesTheDecodedInstruction :
    (playing.withFetchWord 8 1).inputs = .event (.tick 1) :: [] ∧ decode (.tick 1) = .ok .tick := by decide

/-- Also for the second clause of `StepExecutesTheDecodedInstruction`. -/
theorem witness_CommandRunsBeforeASimultaneousTick :
    ({ playing with inputs := [.commandAndTick 0x3000000000000000] } : State).inputs =
      .commandAndTick 0x3000000000000000 :: [] ∧ decode (.command 0x3000000000000000) = .ok .stop := by decide

/-- With a tick to come that steps the listed context. -/
theorem witness_StepKeepsTheInvariant :
    (playing.withFetchWord 8 1).Inv ∧ ∃ t, step (playing.withFetchWord 8 1) = .next t :=
  ⟨⟨by decide, fun _ => by decide, by unfold Ctx.consistent; decide, fun _ => by decide, by decide, by decide,
    by decide⟩, _, rfl⟩

theorem witness_StepKeepsLocationsInsideBuffers :
    (playing.withFetchWord 8 1).LocationsValid ∧ nextInstr (playing.withFetchWord 8 1) = some .tick ∧
      (∀ w ∈ visited (playing.withFetchWord 8 1), ((playing.withFetchWord 8 1).ctx w).HostBounds) ∧
      ∃ t, step (playing.withFetchWord 8 1) = .next t :=
  ⟨by unfold State.LocationsValid; decide, rfl,
    fun w hw => by
      have : w = 0 := by simpa [visited, playing, State.withFetchWord, presentEvent, State.reset] using hw
      subst this
      exact wave_hostBounds,
    _, rfl⟩

theorem witness_EcfgConfiguresTheEngine :
    2 ≤ (2 : BitVec 3).toNat ∧ (2 : BitVec 3).toNat ≤ 6 ∧ 2 ≤ (6 : BitVec 3).toNat ∧ (6 : BitVec 3).toNat ≤ 6 := by
  decide

theorem witness_EcfgWithAnIllegalOffsetIsIgnored :
    ((0 : BitVec 3) = 0) ∧ ((1 : BitVec 3) = 1) ∧ ((7 : BitVec 3) = 7) := by decide

/-- At both ends of the count. -/
theorem witness_PlayInstallsTheChannelList :
    (0 : BitVec 8).toNat ≤ 5 ∧ (5 : BitVec 8).toNat ≤ 5 ∧
      ∀ w ∈ ([0, 1, 2, 3, 7] : List CtxIdx).take (5 : BitVec 8).toNat, w.toNat < State.reset.cfg.nw := by decide

theorem witness_PlayWithTooManyChannelsActsAsStop :
    5 < (6 : BitVec 8).toNat ∧ 5 < (255 : BitVec 8).toNat := by decide

/-- A block of three contexts: index 3 visited (first clause), index 3 above the count (second clause). -/
theorem witness_PlayOfAMissingContextActsAsStop :
    (∃ w ∈ ([0, 3, 0, 0, 0] : List CtxIdx).take (2 : BitVec 8).toNat, small.cfg.nw ≤ w.toNat) ∧
    (∀ w ∈ ([0, 3, 0, 0, 0] : List CtxIdx).take (1 : BitVec 8).toNat, w.toNat < small.cfg.nw) ∧
    Config.default.nw = 8 := by decide

theorem witness_StopIsIdempotent : ∃ t, exec .stop playing = .next t := ⟨_, rfl⟩

/-- A stopped state whose mix pair and indices differ, with a tick to come. -/
theorem witness_PlayZeroAndStopAreIndistinguishable :
    (∃ a b, exec .stop playing = .next a ∧ exec (.play 0 1 2 3 4 5) playing = .next b) ∧
    SilentTwins (State.reset.withFetchWord 8 1)
      { State.reset.withFetchWord 8 1 with chsel := #v[1, 2, 3, 4, 5], mixm := 85, mixs := 8 } ∧
    ∃ t, step (State.reset.withFetchWord 8 1) = .next t :=
  ⟨⟨_, _, rfl, rfl⟩, ⟨rfl, rfl⟩, _, rfl⟩

theorem witness_WcfgConfiguresTheContext :
    (7 : CtxIdx).toNat < State.reset.cfg.nw ∧ 1 ≤ (1 : Half).toNat ∧ 1 ≤ (65535 : Half).toNat := by decide

theorem witness_WcfgChecksOnlyLengthAndIndex :
    (0 : Half) = 0 ∧ small.cfg.nw ≤ (3 : CtxIdx).toNat ∧ (1 : Half) ≠ 0 ∧ (2 : CtxIdx).toNat < small.cfg.nw := by
  decide

theorem witness_WstepKeepsThePosition : (2 : CtxIdx).toNat < small.cfg.nw := by decide

theorem witness_WstepChecksOnlyTheIndex :
    small.cfg.nw ≤ (3 : CtxIdx).toNat ∧ (2 : CtxIdx).toNat < small.cfg.nw := by decide

/-- 95 T11 and T17: the largest legal step, and the largest length safe for every location. -/
theorem witness_LegalStepIsModularAdvance :
    ({ wave with rem := 511, step := 5120, loc := 9, len := 10 } : Ctx).TickLegal ∧
    ({ wave with rem := 0, step := 1024, loc := 65407, len := 65408 } : Ctx).TickLegal :=
  ⟨⟨by decide, by decide, by decide, by decide⟩, ⟨by decide, by decide, by decide, by decide⟩⟩

theorem witness_ManyStepsAreModularAdvance : wave.HostBounds ∧ wave.loc.toNat < wave.len.toNat :=
  ⟨wave_hostBounds, by decide⟩

/-- A disabled state, and an enabled one with an input that is no reset. -/
theorem witness_DisabledTickIsIgnoredUntilTheFirstEnable :
    State.reset.ten = 0 ∧ (playing.withFetchWord 8 1).inputs.head? ≠ some .reset ∧
      (playing.withFetchWord 8 1).ten = 1 ∧ ∃ t, step (playing.withFetchWord 8 1) = .next t :=
  ⟨rfl, by decide, rfl, _, rfl⟩

theorem witness_SilentTickDoesNothing : ({ playing with cnt := 0 } : State).cnt = 0 := rfl

/-- One channel and five; the byte the first clause reads is provided. -/
theorem witness_TickReadsMixesAndWritesThePorts :
    (∀ s ∈ [playing, { playing with cnt := 5 }], s.ten = 1 ∧ s.cnt ≠ 0 ∧ s.cnt.toNat ≤ 5) ∧
      readByte (playing.memory .ram) ((foundCtx playing [0] 0).buf + (foundCtx playing [0] 0).loc).toNat =
        some 0x80 := by decide

theorem witness_TickStepsTheListedContextsAlone : doubled.ten = 1 ∧ doubled.cnt ≠ 0 := by decide

/-- Both ends of the offset. -/
theorem witness_TickDrivesTheWindowAndKeepsTheOtherLines :
    ∀ s ∈ [{ playing with offset := 2, lmask := 0x03, umask := 0xFC },
        { playing with offset := 6, lmask := 0x3F, umask := 0xC0 }],
      s.ten = 1 ∧ s.cnt ≠ 0 ∧ s.cfgWritten = true ∧ s.windowConsistent := by
  unfold State.windowConsistent
  decide

theorem witness_WindowBitsDoNotReachTheOutput :
    playing.ten = 1 ∧ playing.cnt ≠ 0 ∧ (0xFF : Byte) &&& playing.lmask = playing.pLo &&& playing.lmask ∧
      (0xFF : Byte) &&& playing.umask = playing.pHi &&& playing.umask ∧ ∃ t, exec .tick playing = .next t :=
  ⟨rfl, by decide, by decide, by decide, _, rfl⟩

theorem witness_SafeTickReadsInsideItsBuffers :
    playing.ten = 1 ∧ playing.cnt ≠ 0 ∧ playing.cnt.toNat ≤ 5 ∧ playing.TickSafe := by
  refine ⟨rfl, by decide, by decide, .inr (.inr ⟨rfl, fun w hw => ?_⟩)⟩
  have : w = 0 := by simpa [visited, playing, State.reset] using hw
  subst this
  refine ⟨wave_hostBounds, by decide, fun k hk => ?_⟩
  have : k < 4 := hk
  interval_cases k <;> decide

theorem witness_MixLosesNoBitOfALegalSum : Config.default.legal = true ∧ 1275 ≤ 255 * 5 ∧ 255 ≤ 255 * 1 := by
  decide

theorem witness_MixErrorIsBounded : 255 ≤ 255 * 1 ∧ 510 ≤ 255 * 2 ∧ 1020 ≤ 255 * 4 ∧ 765 ≤ 765 ∧ 1275 ≤ 1275 := by
  decide

theorem witness_CommandsMakeNoAccess :
    (∃ t, exec (.wstep 0 1) playing = .next t) ∧ Instr.wstep 0 1 ≠ .tick ∧ ∃ t, exec .tick playing = .next t :=
  ⟨⟨_, rfl⟩, by decide, _, rfl⟩

theorem witness_OnlyPlayAndStopChangeTheChannels :
    (∃ t, step (playing.withFetchWord 8 1) = .next t) ∧
      (playing.withFetchWord 8 1).inputs.head? ≠ some .reset ∧
      nextInstr (playing.withFetchWord 8 1) ≠ some .stop ∧
      ∀ count ch0 ch1 ch2 ch3 ch4,
        nextInstr (playing.withFetchWord 8 1) ≠ some (.play count ch0 ch1 ch2 ch3 ch4) :=
  ⟨⟨_, rfl⟩, by decide, by decide, fun _ _ _ _ _ _ h => by cases h⟩

/-- A command that steps no context, and a tick that does not list context 1. -/
theorem witness_ContextFieldsHaveTheirWriters :
    (∃ t, step (playing.withFetchWord 64 0x3000000000000000) = .next t) ∧
      nextInstr (playing.withFetchWord 64 0x3000000000000000) = some .stop ∧
      (∃ t, step (playing.withFetchWord 8 1) = .next t) ∧
      nextInstr (playing.withFetchWord 8 1) = some .tick ∧ (1 : CtxIdx) ∉ visited (playing.withFetchWord 8 1) :=
  ⟨⟨_, rfl⟩, by decide, ⟨_, rfl⟩, by decide, by decide⟩

/-- A command, and a silent tick. -/
theorem witness_OutputPersistsBetweenTicks :
    nextInstr (playing.withFetchWord 64 0x3000000000000000) ≠ some .tick ∧
      (∀ p v, (State.reset.withFetchWord 8 1).inputs.head? ≠ some (.hostPort p v)) ∧
      nextInstr (State.reset.withFetchWord 8 1) = some .tick ∧ State.reset.cnt = 0 ∧
      ∃ t, step (State.reset.withFetchWord 8 1) = .next t :=
  ⟨by decide, fun _ _ h => (by cases h), by decide, rfl, _, rfl⟩

/-- A store into the byte the listed context fetches next. -/
theorem witness_HostStoreIsSeenByTheNextFetch :
    ({ playing with inputs := [.hostStore .ram 0x0103 7] } : State).inputs = .hostStore .ram 0x0103 7 :: [] ∧
      spaceOf playing.rmode = .ram ∧ (playing.ctx 0).buf + (playing.ctx 0).loc = 0x0103 := by decide

theorem witness_HostPortWriteReplacesOnePort :
    ({ playing with inputs := [.hostPort .hi 7] } : State).inputs = .hostPort .hi 7 :: [] ∧ Port.lo ≠ Port.hi := by
  decide

theorem witness_StepOfIsTheTruncatedQuotient : stepOf .hz 1 1 1 = some 512 := by decide

end Sys2Proof.Tests
end

