-- ==== Sys2Proof/Proofs/Encoding.lean ====
section
/-!
Proofs about the decoder (30_encoding.md R89, R90): which words select which row, and what a step does with a word that
selects none.
-/

namespace Sys2Proof.Proofs

open Sys2Proof.Machine Sys2Proof.Laws

/-! ### The row of a decoded word -/

/-- Whatever a word decodes to has a row, and the word meets it. -/
theorem decodeCommand_ok_selects_row {c : CmdWord} {i : Instr} (h : decodeCommand c = .ok i) :
    ∃ r, rowOf i = some r ∧ c &&& r.1 = r.2 := by
  obtain ⟨hrow, rfl⟩ | ⟨hrow, rfl⟩ | ⟨hrow, rfl⟩ | ⟨hrow, rfl⟩ | ⟨hrow, rfl⟩ := decodeCommand_ok h
  all_goals exact ⟨_, rfl, hrow⟩

/-- The form used once the instruction's constructor, and so its row, is known. -/
theorem meets_row_of_decodeCommand_ok {c mask pattern : CmdWord} {i : Instr} (h : decodeCommand c = .ok i)
    (hi : rowOf i = some (mask, pattern)) : c &&& mask = pattern := by
  obtain ⟨r, hr, hrow⟩ := decodeCommand_ok_selects_row h
  cases hi.symm.trans hr
  exact hrow

theorem decodeCommand_ecfg_iff (c : CmdWord) :
    (∃ off mode rate, decodeCommand c = .ok (.ecfg off mode rate)) ↔ c &&& maskEcfg = matchEcfg :=
  ⟨fun ⟨_, _, _, h⟩ => meets_row_of_decodeCommand_ok h rfl, fun h => ⟨_, _, _, decodeCommand_ecfg h⟩⟩

theorem decodeCommand_play_iff (c : CmdWord) :
    (∃ count ch0 ch1 ch2 ch3 ch4, decodeCommand c = .ok (.play count ch0 ch1 ch2 ch3 ch4)) ↔
      c &&& maskPlay = matchPlay :=
  ⟨fun ⟨_, _, _, _, _, _, h⟩ => meets_row_of_decodeCommand_ok h rfl,
    fun h => ⟨_, _, _, _, _, _, decodeCommand_play h⟩⟩

theorem decodeCommand_stop_iff (c : CmdWord) : decodeCommand c = .ok .stop ↔ c &&& maskStop = matchStop :=
  ⟨fun h => meets_row_of_decodeCommand_ok h rfl, decodeCommand_stop⟩

theorem decodeCommand_wcfg_iff (c : CmdWord) :
    (∃ w buf len step, decodeCommand c = .ok (.wcfg w buf len step)) ↔ c &&& maskWcfg = matchWcfg :=
  ⟨fun ⟨_, _, _, _, h⟩ => meets_row_of_decodeCommand_ok h rfl, fun h => ⟨_, _, _, _, decodeCommand_wcfg h⟩⟩

theorem decodeCommand_wstep_iff (c : CmdWord) :
    (∃ w step, decodeCommand c = .ok (.wstep w step)) ↔ c &&& maskWstep = matchWstep :=
  ⟨fun ⟨_, _, h⟩ => meets_row_of_decodeCommand_ok h rfl, fun h => ⟨_, _, decodeCommand_wstep h⟩⟩

/-- `TICK` has no row of words (R87). -/
theorem decodeCommand_ne_tick (c : CmdWord) : decodeCommand c ≠ .ok .tick := by
  intro h
  obtain ⟨_, hr, -⟩ := decodeCommand_ok_selects_row h
  cases hr

theorem decodeTick_eq_ok_iff (line : BitVec 1) : decodeTick line = .ok .tick ↔ line = 1 := by
  unfold decodeTick
  split
  · exact iff_of_true rfl ‹_›
  · exact iff_of_false nofun ‹_›

/-- Settles O7: a decoded word meets its own row, a word that meets a row has that row's `op`, and the one bit of the
tick input is all its mask keeps. -/
theorem wordsSelectRowsByMaskAndMatch : Obligations.WordsSelectRowsByMaskAndMatch := by
  refine ⟨fun c => ⟨decodeCommand_ecfg_iff c, decodeCommand_play_iff c, decodeCommand_stop_iff c,
    decodeCommand_wcfg_iff c, decodeCommand_wstep_iff c, decodeCommand_ne_tick c⟩, fun line => ?_,
    by decide, by decide, by decide, by decide⟩
  have hmask : line &&& 1 = line := BitVec.and_allOnes
  rw [hmask]
  exact decodeTick_eq_ok_iff line

/-! ### Reserved words -/

/-- A word that meets none of the five rows decodes to no instruction (R90). -/
theorem decodeCommand_error_of_no_row {c : CmdWord} (hEcfg : c &&& maskEcfg ≠ matchEcfg)
    (hPlay : c &&& maskPlay ≠ matchPlay) (hStop : c &&& maskStop ≠ matchStop)
    (hWcfg : c &&& maskWcfg ≠ matchWcfg) (hWstep : c &&& maskWstep ≠ matchWstep) :
    ∃ e, decodeCommand c = .error e := by
  cases hd : decodeCommand c with
  | error e => exact ⟨e, rfl⟩
  | ok i =>
    obtain ⟨hrow, -⟩ | ⟨hrow, -⟩ | ⟨hrow, -⟩ | ⟨hrow, -⟩ | ⟨hrow, -⟩ := decodeCommand_ok hd
    exacts [absurd hrow hEcfg, absurd hrow hPlay, absurd hrow hStop, absurd hrow hWcfg, absurd hrow hWstep]

/-- An event that is no instruction is taken and changes nothing else. -/
theorem step_event_of_decode_error {s : State} {e : Event} {rest : List Input} {err : DecodeError}
    (h : s.inputs = .event e :: rest) (hd : decode e = .error err) :
    step s = .next { s with inputs := rest } := by
  rw [step_event h, hd]
  rfl

/-- Settles O8: a word without a row is no instruction, and the step only takes it. -/
theorem reservedWordIsIgnored : Obligations.ReservedWordIsIgnored := by
  intro s c rest h hEcfg hPlay hStop hWcfg hWstep
  obtain ⟨_, hd⟩ := decodeCommand_error_of_no_row hEcfg hPlay hStop hWcfg hWstep
  exact step_event_of_decode_error h hd

end Sys2Proof.Proofs
end

