-- ==== Sys2Proof/Proofs/Stepping.lean ====
section
/-!
Proofs about stepping (40_stepping.md): `STEP1` in natural numbers, and what `WCFG` and `WSTEP` write, check and leave
alone.
-/

namespace Sys2Proof.Proofs

open Sys2Proof.Machine Sys2Proof.Laws

/-! ### The stepping primitive -/

@[simp] theorem ctx_step1_same (w : CtxIdx) (s : State) : (step1 w s).ctx w = stepCtx (s.ctx w) := by
  rw [ctx_step1, if_pos rfl]

theorem ctx_step1_ne {w v : CtxIdx} (h : v ≠ w) (s : State) : (step1 w s).ctx v = s.ctx v := by
  rw [ctx_step1, if_neg h]

/-- R110's `l` from R110's `t`: the location plus the whole samples of the 16-bit sum, carry out dropped. -/
theorem stepLoc_toNat_eq (x : Ctx) :
    (stepLoc x).toNat = (x.loc.toNat + (x.rem.toNat + x.step.toNat) % 65536 / 512) % 65536 := by
  simp only [stepLoc_toNat, stepInc_toNat, stepSum_toNat, Nat.reducePow]

/-- `STEP1` leaves in `REM` the low nine bits of R110's `t`. -/
theorem stepCtx_rem_toNat (x : Ctx) :
    (stepCtx x).rem.toNat = (x.rem.toNat + x.step.toNat) % 65536 % 512 :=
  (stepRem_toNat x).trans (congrArg (· % 512) (stepSum_toNat x))

/-- Settles O26: `REM` and `LOC` are the two adders read in natural numbers, and the subtraction does not borrow; the
other fields and contexts are kept. -/
theorem stepOneComputesTheRule : Obligations.StepOneComputesTheRule := by
  intro w s x t l y
  have hy : y = stepCtx x := ctx_step1_same w s
  have hl : (stepLoc x).toNat = l := stepLoc_toNat_eq x
  obtain ⟨hbuf, hlen, hstep, -, -⟩ := stepCtx_keeps x
  rw [hy, ← hl]
  exact ⟨stepCtx_rem_toNat x, stepCtx_loc_toNat x, hbuf, hlen, hstep, fun _ hv => ctx_step1_ne hv s⟩

/-! ### WCFG and WSTEP -/

theorem exec_wcfg_accepted {w : CtxIdx} {len : Half} {s : State} (hw : w.toNat < s.cfg.nw)
    (hlen : 1 ≤ len.toNat) (buf step : Half) :
    exec (.wcfg w buf len step) s = .next (s.setCtx w (configuredCtx buf len step)) := by
  rw [exec_wcfg, (ctxExists_iff _ _).2 hw, (lenZero_eq_false_iff _).2 hlen]
  rfl

theorem exec_wcfg_ignored {w : CtxIdx} {len : Half} {s : State} (h : len = 0 ∨ s.cfg.nw ≤ w.toNat)
    (buf step : Half) : exec (.wcfg w buf len step) s = .next s := by
  rw [exec_wcfg, if_neg]
  rw [Bool.and_eq_true, Bool.not_eq_true', ctxExists_iff, lenZero_eq_false_iff]
  rintro ⟨hw, hlen⟩
  rcases h with rfl | h
  · exact absurd hlen (by decide)
  · omega

theorem exec_wstep_accepted {w : CtxIdx} {s : State} (hw : w.toNat < s.cfg.nw) (step : Half) :
    exec (.wstep w step) s =
      .next (s.setCtx w { s.ctx w with step := step, stepWritten := true }) := by
  rw [exec_wstep, if_pos ((ctxExists_iff _ _).2 hw)]

/-- Replacing one context touches no other context, no engine register, no port and no memory. -/
theorem setCtx_frame (s : State) (w : CtxIdx) (x : Ctx) :
    (∀ v, v ≠ w → (s.setCtx w x).ctx v = s.ctx v) ∧ (s.setCtx w x).ten = s.ten ∧
      SameChannels s (s.setCtx w x) ∧ SameMixPair s (s.setCtx w x) ∧ SameConfiguration s (s.setCtx w x) ∧
      NoAccess s (s.setCtx w x) ∧ SameSurroundings s (s.setCtx w x) := by
  refine ⟨fun v hv => ctx_setCtx_ne s x hv, setCtx_ten s w x, ?channels, ?mix, ?config, ?access, ?surroundings⟩
  case channels => exact ⟨setCtx_cnt s w x, setCtx_chsel s w x⟩
  case mix => exact ⟨setCtx_mixm s w x, setCtx_mixs s w x⟩
  case config => simp [SameConfiguration]
  case access =>
    have hmem : SameMemory s (s.setCtx w x) := fun space a =>
      congrArg (readByte · a) (memory_congr (setCtx_ram s w x) (setCtx_rom s w x) space)
    exact ⟨setCtx_trace s w x, setCtx_draws s w x, setCtx_pLo s w x, setCtx_pHi s w x, hmem⟩
  case surroundings => exact ⟨setCtx_cfg s w x, setCtx_inputs s w x⟩

/-- Settles O22: an accepted `WCFG` replaces one context by the configured one, whose fields are read off. -/
theorem wcfgConfiguresTheContext : Obligations.WcfgConfiguresTheContext := by
  refine ⟨fun w buf len stp s hw hlen => ⟨_, exec_wcfg_accepted hw hlen buf stp, ?_⟩, by decide⟩
  rw [ctx_setCtx_same]
  exact ⟨rfl, rfl, rfl, rfl, rfl, rfl, rfl, setCtx_frame s w _⟩

/-- Settles O23: the ignored and the accepted `WCFG` are the two branches; the accepted one looks at no other operand. -/
theorem wcfgChecksOnlyLengthAndIndex : Obligations.WcfgChecksOnlyLengthAndIndex := by
  refine ⟨fun w buf len stp s h => exec_wcfg_ignored h buf stp, fun w buf len stp s hlen hw => ?_⟩
  have hpos : 1 ≤ len.toNat := Nat.pos_of_ne_zero fun h => hlen (BitVec.eq_of_toNat_eq h)
  refine ⟨_, exec_wcfg_accepted hw hpos buf stp, ?_⟩
  rw [ctx_setCtx_same]
  rfl

/-- Settles O24: an accepted `WSTEP` replaces one context by itself with another step. -/
theorem wstepKeepsThePosition : Obligations.WstepKeepsThePosition := by
  refine ⟨fun w stp s hw => ⟨_, exec_wstep_accepted hw stp, ?_⟩, by decide⟩
  rw [ctx_setCtx_same]
  exact ⟨rfl, rfl, rfl, rfl, rfl, rfl, rfl, setCtx_frame s w _⟩

end Sys2Proof.Proofs
end

