-- ==== Sys2Proof/Proofs/ChannelSet.lean ====
section
/-!
Proofs about the engine commands (41_channel_set.md): what `ECFG`, `PLAY` and `STOP` write, when `ECFG` is ignored, when
`PLAY` acts as `STOP`, and what each leaves alone.
-/

namespace Sys2Proof.Proofs

open Sys2Proof.Machine Sys2Proof.Laws

/-! ### Frames -/

/-- A state that differs only in registers of the block has made no access. -/
theorem noAccess_of_fields_eq {s t : State} (htrace : t.trace = s.trace) (hdraws : t.draws = s.draws)
    (hlo : t.pLo = s.pLo) (hhi : t.pHi = s.pHi) (hram : t.ram = s.ram) (hrom : t.rom = s.rom) :
    NoAccess s t :=
  ⟨htrace, hdraws, hlo, hhi, fun space a => congrArg (readByte · a) (memory_congr hram hrom space)⟩

/-- What `PLAY` and `STOP` leave alone: they write the channel list, the mix pair and `TEN` (R144, R147). -/
theorem frame_of_channel_writes {s t : State}
    (h : t = { s with cnt := t.cnt, chsel := t.chsel, mixm := t.mixm, mixs := t.mixs, ten := t.ten }) :
    SameConfiguration s t ∧ SameContexts s t ∧ NoAccess s t ∧ SameSurroundings s t := by
  rw [h]
  refine ⟨?config, ?contexts, ?access, ?surroundings⟩
  case config => exact ⟨rfl, rfl, rfl, rfl, rfl, rfl⟩
  case contexts => exact ctx_congr rfl
  case access => exact noAccess_of_fields_eq rfl rfl rfl rfl rfl rfl
  case surroundings => exact ⟨rfl, rfl⟩

/-- What `ECFG` leaves alone (R141). -/
theorem configureEngine_frame (off : BitVec 3) (mode : BitVec 1) (rate : BitVec 8) (s : State) :
    let t := configureEngine off mode rate s
    SameChannels s t ∧ SameMixPair s t ∧ SameContexts s t ∧ NoAccess s t ∧ SameSurroundings s t :=
  ⟨⟨rfl, rfl⟩, ⟨rfl, rfl⟩, ctx_configureEngine off mode rate s,
    noAccess_of_fields_eq rfl rfl rfl rfl rfl rfl, ⟨rfl, rfl⟩⟩

/-! ### ECFG -/

/-- R141's form of `UMASK`: the full byte shifted left, the bits above bit 7 dropped. -/
theorem upperMask_toNat_eq_shifted_mod (off : BitVec 3) :
    (upperMask off).toNat = (0xFF * 2 ^ off.toNat) % 256 := by
  simp [upperMask, Nat.shiftLeft_eq]

theorem exec_ecfg_legal {off : BitVec 3} (hmin : 2 ≤ off.toNat) (hmax : off.toNat ≤ 6) (mode : BitVec 1)
    (rate : BitVec 8) (s : State) :
    exec (.ecfg off mode rate) s = .next (configureEngine off mode rate s) := by
  rw [exec_ecfg, if_pos ((offsetLegal_iff off).2 ⟨hmin, hmax⟩)]

/-- Settles O14: a legal offset takes the configuring branch, whose fields are read off. -/
theorem ecfgConfiguresTheEngine : Obligations.EcfgConfiguresTheEngine := by
  refine ⟨fun off mode rate s hmin hmax => ⟨_, exec_ecfg_legal hmin hmax mode rate s, ?_⟩, by decide⟩
  exact ⟨rfl, lowerMask_toNat, upperMask_toNat_eq_shifted_mod off, rfl, rfl, rfl, rfl,
    configureEngine_frame off mode rate s⟩

/-- Settles O15: 0, 1 and 7 are not in 2..6, so the configuring branch is not taken. -/
theorem ecfgWithAnIllegalOffsetIsIgnored : Obligations.EcfgWithAnIllegalOffsetIsIgnored := by
  intro off mode rate s hoff
  have hillegal : ¬ offsetLegal off = true := by
    rcases hoff with rfl | rfl | rfl <;> decide
  rw [exec_ecfg, if_neg hillegal]

/-! ### STOP -/

/-- What `STOP` leaves (R147): an empty list, `TEN` at 1, everything else as it was. -/
theorem bracket_emptyChannels_spec (s : State) :
    let t := bracket emptyChannels s
    t.cnt = 0 ∧ (∀ i : Fin 5, t.chsel[i] = 0) ∧ t.ten = 1 ∧ SameMixPair s t ∧
      SameConfiguration s t ∧ SameContexts s t ∧ NoAccess s t ∧ SameSurroundings s t := by
  have hzero : ∀ i : Fin 5, (#v[0, 0, 0, 0, 0] : Vector CtxIdx 5)[i] = 0 := by decide
  exact ⟨rfl, hzero, rfl, ⟨rfl, rfl⟩, frame_of_channel_writes rfl⟩

/-- Settles O19: `STOP` always takes the update whose effect is `bracket_emptyChannels_spec`. -/
theorem stopEmptiesTheChannelList : Obligations.StopEmptiesTheChannelList :=
  ⟨fun s => ⟨_, exec_stop s, bracket_emptyChannels_spec s⟩, by decide⟩

/-- A tick does nothing in the silent state, whatever `TEN` is (R172). -/
theorem exec_tick_of_cnt_eq_zero {s : State} (h : s.cnt = 0) : exec .tick s = .next s := by
  rw [exec_tick, if_pos ((silent_iff s).2 h), ite_self]

/-! ### PLAY -/

section
variable {count : BitVec 8} {ch0 ch1 ch2 ch3 ch4 : CtxIdx} {s : State}

theorem exec_play_accepted (hcount : count.toNat ≤ 5)
    (hexist : ∀ w ∈ [ch0, ch1, ch2, ch3, ch4].take count.toNat, w.toNat < s.cfg.nw) :
    exec (.play count ch0 ch1 ch2 ch3 ch4) s =
      .next (bracket (installChannels count #v[ch0, ch1, ch2, ch3, ch4]) s) := by
  rw [exec_play, (playRejected_eq_false_iff ..).2 ⟨hcount, hexist⟩]
  rfl

/-- R145 and R146 at once: a `PLAY` with too many channels or a missing context is a `STOP`. -/
theorem exec_play_rejected (h : ¬ (count.toNat ≤ 5 ∧
      ∀ w ∈ [ch0, ch1, ch2, ch3, ch4].take count.toNat, w.toNat < s.cfg.nw)) :
    exec (.play count ch0 ch1 ch2 ch3 ch4) s = exec .stop s := by
  rw [← playRejected_eq_false_iff, Bool.not_eq_false] at h
  rw [exec_play, if_pos h, exec_stop]

end

/-- A count of at most 5 fits the 3 bits of `CNT`. -/
theorem bracket_installChannels_cnt_toNat {count : BitVec 8} (hcount : count.toNat ≤ 5)
    (chs : Vector CtxIdx 5) (s : State) :
    (bracket (installChannels count chs) s).cnt.toNat = count.toNat := by
  simp only [bracket_installChannels, installChannels_cnt, BitVec.toNat_setWidth]
  omega

/-- After an accepted `PLAY` a tick visits the first `count` of the copied indices, and reads no other (R144). -/
theorem visited_bracket_installChannels {count : BitVec 8} (hcount : count.toNat ≤ 5)
    (chs : Vector CtxIdx 5) (s : State) :
    visited (bracket (installChannels count chs) s) = chs.toList.take count.toNat :=
  congrArg chs.toList.take (bracket_installChannels_cnt_toNat hcount chs s)

/-- The lookup of a count of at most 5 is an entry of `MIXTABLE`, not the default. -/
theorem mixTable_getElem?_eq_mixPair (c : Config) {n : Nat} (h : n ≤ 5) :
    c.mixTable[n]? = some (c.mixPair n) := by
  have hn : n < 6 := by omega
  simp [Config.mixPair, hn]

/-- Settles O16: the accepted branch, with the count back in 3 bits and the pair an entry of the table. -/
theorem playInstallsTheChannelList : Obligations.PlayInstallsTheChannelList := by
  refine ⟨fun count ch0 ch1 ch2 ch3 ch4 s hcount hexist =>
    ⟨_, exec_play_accepted hcount hexist, ?_⟩, by decide, by decide⟩
  exact ⟨mixTable_getElem?_eq_mixPair s.cfg hcount, rfl, bracket_installChannels_cnt_toNat hcount _ s, rfl,
    visited_bracket_installChannels hcount _ s, frame_of_channel_writes rfl⟩

/-- Settles O17: a count above 5 is rejected, so that what `STOP` leaves, and a tick on it, are all there is to see. -/
theorem playWithTooManyChannelsActsAsStop : Obligations.PlayWithTooManyChannelsActsAsStop := by
  refine ⟨fun count ch0 ch1 ch2 ch3 ch4 s hcount => ?_, by decide⟩
  have hstop : exec (.play count ch0 ch1 ch2 ch3 ch4) s = exec .stop s :=
    exec_play_rejected fun h => Nat.not_le_of_lt hcount h.1
  obtain ⟨hcnt, hchsel, hten, hmix, -, -, haccess, -⟩ := bracket_emptyChannels_spec s
  exact ⟨hstop, _, hstop.trans (exec_stop s), hcnt, hchsel, hten, hmix, haccess,
    exec_tick_of_cnt_eq_zero hcnt⟩

/-- Settles O18: one missing context among those visited rejects the `PLAY`; those above the count are not looked at;
three bits cannot name a context beyond the eighth. -/
theorem playOfAMissingContextActsAsStop : Obligations.PlayOfAMissingContextActsAsStop := by
  refine ⟨?missing, ?accepted, ?eight⟩
  case missing =>
    rintro count ch0 ch1 ch2 ch3 ch4 s - ⟨w, hw, hmissing⟩
    exact exec_play_rejected fun ⟨_, hexist⟩ => Nat.not_lt_of_le hmissing (hexist w hw)
  case accepted =>
    intro count ch0 ch1 ch2 ch3 ch4 s hcount hexist
    exact ⟨_, exec_play_accepted hcount hexist, rfl, visited_bracket_installChannels hcount _ s⟩
  case eight => exact fun c w hnw => hnw ▸ w.isLt

end Sys2Proof.Proofs
end

