-- ==== Sys2Proof/Proofs/TickEnable.lean ====
section
/-!
Proofs about the ticks that do nothing (42_tick_mix_output.md R171, R172): the disabled tick, the silent tick, and which
inputs change `TEN`.
-/

namespace Sys2Proof.Proofs

open Sys2Proof.Machine Sys2Proof.Laws

/-! ### The writers of TEN -/

/-- An instruction keeps `TEN` or sets it: none answers a state with `TEN` cleared. -/
theorem exec_ten_kept_or_set {i : Instr} {s t : State} (h : exec i s = .next t) :
    t.ten = s.ten ∨ t.ten = 1 := by
  obtain rfl | ⟨_, _, _, -, -, rfl⟩ | ⟨-, rfl⟩ | ⟨_, _, _, _, _, _, -, -, rfl⟩ | ⟨_, _, _, _, -, -, -, rfl⟩ |
    ⟨_, _, -, -, rfl⟩ | ⟨-, -, -, rfl⟩ := exec_cases h
  · exact .inl rfl
  · exact .inr (configureEngine_ten ..)
  · exact .inr (bracket_ten ..)
  · exact .inr (bracket_ten ..)
  · exact .inl (setCtx_ten ..)
  · exact .inl (setCtx_ten ..)
  · exact .inl (playTick_ten s)

/-- The reset event is the only input that can clear `TEN`. -/
theorem step_ten_kept_or_set {s t : State} (hreset : s.inputs.head? ≠ some .reset) (h : step s = .next t) :
    t.ten = s.ten ∨ t.ten = 1 := by
  obtain ht | ⟨_, rest, -, hexec⟩ | ⟨_, _, _, -, rfl⟩ | ⟨_, _, _, _, -, rfl⟩ | ⟨_, _, _, -, rfl⟩ | ⟨_, hin, -⟩ :=
    step_cases h
  · exact .inl (by rw [ht])
  · exact exec_ten_kept_or_set (s := { s with inputs := rest }) hexec
  · exact .inl (setPort_ten ..)
  · exact .inl (hostStore_ten ..)
  · exact .inl (hostFree_ten ..)
  · exact absurd (congrArg List.head? hin) hreset

/-- Accepted or rejected, `PLAY` is a bracketed update (R144 to R146). -/
theorem exec_play_eq_bracket (count : BitVec 8) (ch0 ch1 ch2 ch3 ch4 : CtxIdx) (s : State) :
    ∃ update, exec (.play count ch0 ch1 ch2 ch3 ch4) s = .next (bracket update s) := by
  rw [exec_play]
  split
  · exact ⟨emptyChannels, rfl⟩
  · exact ⟨installChannels count #v[ch0, ch1, ch2, ch3, ch4], rfl⟩

/-! ### The ticks that do nothing -/

/-- A tick does nothing while ticks are disabled, whatever the channel list is (R171). -/
theorem exec_tick_of_ten_eq_zero {s : State} (h : s.ten = 0) : exec .tick s = .next s := by
  rw [exec_tick, if_pos ((ticksDisabled_iff s).2 h)]

/-- Settles O29: a step without reset keeps a `TEN` of 1, since it keeps or sets it; the configuring branch of `ECFG` and
the bracket of `PLAY` and `STOP` set it. -/
theorem disabledTickIsIgnoredUntilTheFirstEnable : Obligations.DisabledTickIsIgnoredUntilTheFirstEnable := by
  refine ⟨fun _ => exec_tick_of_ten_eq_zero, rfl, ?keeps, fun s => ⟨?ecfg, ?play, ?stop⟩⟩
  case keeps =>
    intro s t hreset hten h
    exact (step_ten_kept_or_set hreset h).elim (·.trans hten) id
  case ecfg =>
    intro off mode rate hmin hmax
    exact ⟨_, exec_ecfg_legal hmin hmax mode rate s, configureEngine_ten off mode rate s⟩
  case play =>
    intro count ch0 ch1 ch2 ch3 ch4
    obtain ⟨update, hplay⟩ := exec_play_eq_bracket count ch0 ch1 ch2 ch3 ch4 s
    exact ⟨_, hplay, bracket_ten update s⟩
  case stop => exact ⟨_, exec_stop s, bracket_ten emptyChannels s⟩

/-- Settles O30: the test of `CNT` alone decides, in both branches of the test of `TEN`. -/
theorem silentTickDoesNothing : Obligations.SilentTickDoesNothing :=
  fun _ => exec_tick_of_cnt_eq_zero

end Sys2Proof.Proofs
end

