-- ==== Sys2Proof/Proofs/Reset.lean ====
section
/-!
Proofs about the state after reset (70_reset_and_hazards.md R240).
-/

namespace Sys2Proof.Proofs

open Sys2Proof.Machine Sys2Proof.Laws

/-- Every context is unwritten after reset: the reset event leaves the reset state as it is. -/
@[simp] theorem ctx_reset (w : CtxIdx) : State.reset.ctx w = Ctx.reset := ctx_resetBlock State.reset w

/-- Every channel entry is 0 after reset, as after `STOP` (R240). -/
theorem chsel_reset : ∀ i : Fin 5, State.reset.chsel[i] = 0 := by decide

/-- Settles O1: the registers and the empty trace are read off `State.reset`; the marks of every context are those of
`Ctx.reset`. -/
theorem resetLeavesTheSilentState : Obligations.ResetLeavesTheSilentState := by
  refine ⟨rfl, rfl, chsel_reset, rfl, rfl, rfl, ?marks, rfl⟩
  case marks =>
    intro w
    rw [ctx_reset]
    exact ⟨rfl, rfl⟩

end Sys2Proof.Proofs
end

