-- ==== Sys2Proof/Proofs/RoundTrip.lean ====
section
/-!
Proofs about encoding and decoding (30_encoding.md sections 2 to 4): no bit of an operand is dropped by a format, and no bit
of a decoded word is ignored.
-/

namespace Sys2Proof.Proofs

open Sys2Proof.Machine Sys2Proof.Laws

/-! ### The fields of an encoding are the operands -/

/-- A field is known by its bits. -/
theorem field_eq_of_bits {c : CmdWord} {lo len : Nat} {x : BitVec len}
    (h : ∀ i < len, c.getLsbD (lo + i) = x.getLsbD i) : field c lo len = x :=
  BitVec.eq_of_getLsbD_eq fun i hi => by
    simp only [field, BitVec.getLsbD_extractLsb', hi, decide_true, Bool.true_and, h]

theorem fieldsEcfg_encodeEcfg (off : BitVec 3) (mode : BitVec 1) (rate : BitVec 8) :
    fieldsEcfg (encodeEcfg off mode rate) = .ecfg off mode rate := by
  rw [fieldsEcfg, Instr.ecfg.injEq]
  refine ⟨field_eq_of_bits ?_, field_eq_of_bits ?_, field_eq_of_bits ?_⟩
  all_goals
    intro i hi
    simp only [encodeEcfg, BitVec.getLsbD_append]
    interval_cases i <;> simp

theorem fieldsPlay_encodePlay (count : BitVec 8) (ch0 ch1 ch2 ch3 ch4 : CtxIdx) :
    fieldsPlay (encodePlay count ch0 ch1 ch2 ch3 ch4) = .play count ch0 ch1 ch2 ch3 ch4 := by
  rw [fieldsPlay, Instr.play.injEq]
  refine ⟨field_eq_of_bits ?_, field_eq_of_bits ?_, field_eq_of_bits ?_, field_eq_of_bits ?_, field_eq_of_bits ?_,
    field_eq_of_bits ?_⟩
  all_goals
    intro i hi
    simp only [encodePlay, BitVec.getLsbD_append]
    interval_cases i <;> simp

theorem fieldsWcfg_encodeWcfg (w : CtxIdx) (buf len step : Half) :
    fieldsWcfg (encodeWcfg w buf len step) = .wcfg w buf len step := by
  rw [fieldsWcfg, Instr.wcfg.injEq]
  refine ⟨field_eq_of_bits ?_, field_eq_of_bits ?_, field_eq_of_bits ?_, field_eq_of_bits ?_⟩
  all_goals
    intro i hi
    simp only [encodeWcfg, BitVec.getLsbD_append]
    interval_cases i <;> simp

theorem fieldsWstep_encodeWstep (w : CtxIdx) (step : Half) :
    fieldsWstep (encodeWstep w step) = .wstep w step := by
  rw [fieldsWstep, Instr.wstep.injEq]
  refine ⟨field_eq_of_bits ?_, field_eq_of_bits ?_⟩
  all_goals
    intro i hi
    simp only [encodeWstep, BitVec.getLsbD_append]
    interval_cases i <;> simp

/-- Settles O5: an encoding lies in its own row, so the decoder reads that row's fields, and they are the operands. -/
theorem decodeOfEncodeIsTheInstruction : Obligations.DecodeOfEncodeIsTheInstruction := by
  intro i
  cases i with
  | ecfg off mode rate =>
    exact (decodeCommand_ecfg (encodeEcfg_row ..)).trans (congrArg _ (fieldsEcfg_encodeEcfg ..))
  | play count ch0 ch1 ch2 ch3 ch4 =>
    exact (decodeCommand_play (encodePlay_row ..)).trans (congrArg _ (fieldsPlay_encodePlay ..))
  | stop => decide
  | wcfg w buf len step =>
    exact (decodeCommand_wcfg (encodeWcfg_row ..)).trans (congrArg _ (fieldsWcfg_encodeWcfg ..))
  | wstep w step =>
    exact (decodeCommand_wstep (encodeWstep_row ..)).trans (congrArg _ (fieldsWstep_encodeWstep ..))
  | tick => decide

/-! ### A decoded word is the encoding of its fields -/

/-- A word that meets a row is the row's match together with the word's own bits outside the mask. -/
theorem match_or_fieldBits {c mask pattern : CmdWord} (h : c &&& mask = pattern) :
    pattern ||| (c &&& ~~~mask) = c := by
  rw [← h, ← BitVec.and_or_distrib_left, BitVec.or_not_self, BitVec.and_allOnes]

theorem encode_fieldsEcfg (c : CmdWord) :
    encode (fieldsEcfg c) = .command (matchEcfg ||| (c &&& ~~~maskEcfg)) := by
  refine congrArg Event.command (BitVec.eq_of_getLsbD_eq fun i hi => ?_)
  simp only [encodeEcfg, field, BitVec.getLsbD_and, BitVec.getLsbD_or, BitVec.getLsbD_append]
  interval_cases i <;> simp [maskEcfg, matchEcfg]

theorem encode_fieldsPlay (c : CmdWord) :
    encode (fieldsPlay c) = .command (matchPlay ||| (c &&& ~~~maskPlay)) := by
  refine congrArg Event.command (BitVec.eq_of_getLsbD_eq fun i hi => ?_)
  simp only [encodePlay, field, BitVec.getLsbD_and, BitVec.getLsbD_or, BitVec.getLsbD_append]
  interval_cases i <;> simp [maskPlay, matchPlay]

theorem encode_fieldsWcfg (c : CmdWord) :
    encode (fieldsWcfg c) = .command (matchWcfg ||| (c &&& ~~~maskWcfg)) := by
  refine congrArg Event.command (BitVec.eq_of_getLsbD_eq fun i hi => ?_)
  simp only [encodeWcfg, field, BitVec.getLsbD_and, BitVec.getLsbD_or, BitVec.getLsbD_append]
  interval_cases i <;> simp [maskWcfg, matchWcfg]

theorem encode_fieldsWstep (c : CmdWord) :
    encode (fieldsWstep c) = .command (matchWstep ||| (c &&& ~~~maskWstep)) := by
  refine congrArg Event.command (BitVec.eq_of_getLsbD_eq fun i hi => ?_)
  simp only [encodeWstep, field, BitVec.getLsbD_and, BitVec.getLsbD_or, BitVec.getLsbD_append]
  interval_cases i <;> simp [maskWstep, matchWstep]

theorem encode_of_decodeCommand_ok {c : CmdWord} {i : Instr} (h : decodeCommand c = .ok i) :
    encode i = .command c := by
  obtain ⟨hrow, rfl⟩ | ⟨hrow, rfl⟩ | ⟨hrow, rfl⟩ | ⟨hrow, rfl⟩ | ⟨hrow, rfl⟩ := decodeCommand_ok h
  · rw [encode_fieldsEcfg, match_or_fieldBits hrow]
  · rw [encode_fieldsPlay, match_or_fieldBits hrow]
  · have hword : c = matchStop := BitVec.and_allOnes.symm.trans hrow
    rw [hword]
    rfl
  · rw [encode_fieldsWcfg, match_or_fieldBits hrow]
  · rw [encode_fieldsWstep, match_or_fieldBits hrow]

/-- The tick input decodes at 1 alone, and to nothing but `TICK` (R87). -/
theorem decodeTick_ok {line : BitVec 1} {i : Instr} (h : decodeTick line = .ok i) : line = 1 ∧ i = .tick := by
  unfold decodeTick at h
  split at h
  · cases h
    exact ⟨‹_›, rfl⟩
  · cases h

/-- Settles O6: a decoded word is its row's match and its field bits, which is what the encoder of the row writes. -/
theorem encodeOfDecodeIsTheEvent : Obligations.EncodeOfDecodeIsTheEvent := by
  intro e i h
  cases e with
  | command c => exact encode_of_decodeCommand_ok h
  | tick line =>
    obtain ⟨rfl, rfl⟩ := decodeTick_ok h
    rfl

/-- Settles O4: the decoder is run on the eight events. -/
theorem specWordsDecode : Obligations.SpecWordsDecode := by
  unfold Obligations.SpecWordsDecode
  decide

end Sys2Proof.Proofs
end

