-- ==== Sys2Proof/Proofs/LegalStepping.lean ====
section
/-!
Proofs about stepping in the legal domain (40_stepping.md section 1, 70 section 3): the modular law of one step, that the
host's static bounds make every step legal, and the law of many steps.
-/

namespace Sys2Proof.Proofs

open Sys2Proof.Machine Sys2Proof.Laws

/-! ### One legal step -/

section
variable {x : Ctx} (h : x.TickLegal)
include h

/-- Under L3 and L4 neither adder drops a carry. -/
theorem stepLoc_toNat_of_tickLegal :
    (stepLoc x).toNat = x.loc.toNat + (x.rem.toNat + x.step.toNat) / 512 := by
  rw [stepLoc_toNat, stepInc_toNat, stepSum_toNat, Nat.mod_eq_of_lt h.sum_lt, Nat.mod_eq_of_lt h.adv_lt]

theorem stepCtx_rem_of_tickLegal : (stepCtx x).rem.toNat = (x.rem.toNat + x.step.toNat) % 512 := by
  rw [stepCtx_rem_toNat, Nat.mod_eq_of_lt (b := 65536) h.sum_lt]

/-- Under L1 and L2 the advance is below two buffers, so that one subtraction is the whole reduction. -/
theorem stepCtx_loc_of_tickLegal :
    (stepCtx x).loc.toNat = (x.loc.toNat + (x.rem.toNat + x.step.toNat) / 512) % x.len.toNat := by
  have hrem : x.rem.toNat < 512 := x.rem.isLt
  have hloc := h.loc_lt
  have hstep := h.step_le
  rw [stepCtx_loc_toNat, stepLoc_toNat_of_tickLegal h]
  split
  · rw [Nat.mod_eq_sub_mod ‹_›, Nat.mod_eq_of_lt (by omega)]
  · rw [Nat.mod_eq_of_lt (by omega)]

theorem stepCtx_loc_lt_of_tickLegal : (stepCtx x).loc.toNat < x.len.toNat := by
  rw [stepCtx_loc_of_tickLegal h]
  exact Nat.mod_lt _ (Nat.zero_lt_of_lt h.loc_lt)

theorem stepCtx_position_of_tickLegal :
    (stepCtx x).position = (x.position + x.step.toNat) % (512 * x.len.toNat) := by
  have hrem : (x.position + x.step.toNat) % 512 = (x.rem.toNat + x.step.toNat) % 512 := by
    unfold Ctx.position; omega
  have hloc : (x.position + x.step.toNat) / 512 = x.loc.toNat + (x.rem.toNat + x.step.toNat) / 512 := by
    unfold Ctx.position; omega
  rw [Nat.mod_mul, hrem, hloc, ← stepCtx_rem_of_tickLegal h, ← stepCtx_loc_of_tickLegal h, Nat.add_comm]
  rfl

end

/-- Settles O27: no carry is lost, so the location and the remainder are the two digits of the position in base 512. -/
theorem legalStepIsModularAdvance : Obligations.LegalStepIsModularAdvance := fun _ h =>
  ⟨stepCtx_position_of_tickLegal h, stepCtx_loc_lt_of_tickLegal h, stepCtx_rem_of_tickLegal h,
    stepCtx_loc_of_tickLegal h⟩

/-! ### Many steps within the host's bounds -/

/-- The host's static bounds and a location inside the buffer give L1 to L4, whatever `REM` holds (70 R246). -/
theorem tickLegal_of_hostBounds {x : Ctx} (hb : x.HostBounds) (hloc : x.loc.toNat < x.len.toNat) :
    x.TickLegal := by
  have hrem : x.rem.toNat < 512 := x.rem.isLt
  obtain ⟨-, hstep, hsmall, hlen, -⟩ := hb
  exact ⟨hloc, hstep, by omega, by omega⟩

/-- The host's bounds mention no field that `STEP1` writes. -/
theorem hostBounds_stepCtx {x : Ctx} (hb : x.HostBounds) : (stepCtx x).HostBounds :=
  ⟨hb.written, hb.step_le, hb.step_small, hb.len_small, hb.inside⟩

theorem stepCtx_iterate_hostBounds {x : Ctx} (n : Nat) (hb : x.HostBounds) (hloc : x.loc.toNat < x.len.toNat) :
    (stepCtx^[n] x).HostBounds ∧ (stepCtx^[n] x).loc.toNat < (stepCtx^[n] x).len.toNat := by
  induction n generalizing x with
  | zero => exact ⟨hb, hloc⟩
  | succ n ih => exact ih (hostBounds_stepCtx hb) (stepCtx_loc_lt_of_tickLegal (tickLegal_of_hostBounds hb hloc))

/-- Every further tick stays legal: L1 to L4 hold after any number of steps. -/
theorem tickLegal_stepCtx_iterate {x : Ctx} (n : Nat) (hb : x.HostBounds) (hloc : x.loc.toNat < x.len.toNat) :
    (stepCtx^[n] x).TickLegal :=
  have ⟨hbn, hlocn⟩ := stepCtx_iterate_hostBounds n hb hloc
  tickLegal_of_hostBounds hbn hlocn

theorem stepCtx_iterate_loc_lt {x : Ctx} (n : Nat) (hb : x.HostBounds) (hloc : x.loc.toNat < x.len.toNat) :
    (stepCtx^[n] x).loc.toNat < x.len.toNat := by
  obtain ⟨-, hlen, -⟩ := stepCtx_iterate_keeps n x
  exact hlen ▸ (stepCtx_iterate_hostBounds n hb hloc).2

theorem stepCtx_iterate_position {x : Ctx} (n : Nat) (hb : x.HostBounds) (hloc : x.loc.toNat < x.len.toNat) :
    (stepCtx^[n] x).position = (x.position + n * x.step.toNat) % (512 * x.len.toNat) := by
  induction n with
  | zero =>
    have hrem : x.rem.toNat < 512 := x.rem.isLt
    rw [Nat.zero_mul, Nat.add_zero, Nat.mod_eq_of_lt (by unfold Ctx.position; omega)]
    rfl
  | succ n ih =>
    obtain ⟨-, hlen, hstep, -, -⟩ := stepCtx_iterate_keeps n x
    rw [Function.iterate_succ_apply', stepCtx_position_of_tickLegal (tickLegal_stepCtx_iterate n hb hloc), ih,
      hlen, hstep, Nat.mod_add_mod, Nat.add_assoc, ← Nat.succ_mul]

/-- Settles O28: the host's bounds survive a step and make the next one legal, so the modular law adds up. -/
theorem manyStepsAreModularAdvance : Obligations.ManyStepsAreModularAdvance := fun n _ hb hloc =>
  ⟨stepCtx_iterate_position n hb hloc, stepCtx_iterate_loc_lt n hb hloc⟩

/-! ### WSTEP -/

/-- Settles O25: a missing context is the ignored branch; an accepted `WSTEP` replaces the step that the next `STEP1`
adds to the remainder. -/
theorem wstepChecksOnlyTheIndex : Obligations.WstepChecksOnlyTheIndex := by
  refine ⟨fun w stp s hw => ?ignored, fun w stp s hw => ⟨_, exec_wstep_accepted hw stp, ?accepted⟩⟩
  case ignored => rw [exec_wstep, if_neg fun hc => Nat.not_lt_of_le hw ((ctxExists_iff _ _).1 hc)]
  case accepted =>
    rw [ctx_setCtx_same]
    exact ⟨rfl, stepCtx_rem_toNat _⟩

end Sys2Proof.Proofs
end

