-- ==== Sys2Proof/Proofs/Steps.lean ====
section
/-!
Proofs about a step as such (00_scope.md section 5, 60_exceptions.md section 2): it executes what the next input holds, it
always answers a next state, and of a command and a tick at one moment the command comes first.
-/

namespace Sys2Proof.Proofs

open Sys2Proof.Machine Sys2Proof.Laws

/-! ### Every step answers a next state -/

theorem exec_next (i : Instr) (s : State) : ∃ t, exec i s = .next t := by
  cases i with
  | ecfg off mode rate => exact ⟨_, exec_ecfg off mode rate s⟩
  | play count ch0 ch1 ch2 ch3 ch4 => exact ⟨_, exec_play count ch0 ch1 ch2 ch3 ch4 s⟩
  | stop => exact ⟨_, exec_stop s⟩
  | wcfg w buf len step => exact ⟨_, exec_wcfg w buf len step s⟩
  | wstep w step => exact ⟨_, exec_wstep w step s⟩
  | tick => exact ⟨_, exec_tick s⟩

theorem runDecoded_next (d : Except DecodeError Instr) (s : State) : ∃ t, runDecoded d s = .next t := by
  cases d with
  | error e => exact ⟨s, rfl⟩
  | ok i => exact exec_next i s

/-- Settles O11: of the inputs, those that hold an event are an execution or are ignored, and the others replace the
state. -/
theorem everyStepAnswersANextState : Obligations.EveryStepAnswersANextState := by
  intro s
  rcases h : s.inputs with _ | ⟨i, rest⟩
  · exact ⟨_, step_idle h⟩
  · cases i with
    | event e => exact step_event h ▸ runDecoded_next _ _
    | commandAndTick c => exact step_both h ▸ runDecoded_next _ _
    | hostPort p v => exact ⟨_, step_hostPort h⟩
    | hostStore space addr v => exact ⟨_, step_hostStore h⟩
    | hostFree space addr => exact ⟨_, step_hostFree h⟩
    | reset => exact ⟨_, step_reset h⟩

/-! ### What a step executes -/

theorem step_event_of_decode_ok {s : State} {e : Event} {rest : List Input} {i : Instr}
    (h : s.inputs = .event e :: rest) (hd : decode e = .ok i) : step s = exec i { s with inputs := rest } := by
  rw [step_event h, hd]
  rfl

theorem step_both_of_decode_ok {s : State} {c : CmdWord} {rest : List Input} {i : Instr}
    (h : s.inputs = .commandAndTick c :: rest) (hd : decode (.command c) = .ok i) :
    step s = exec i { s with inputs := .event (.tick 1) :: rest } := by
  rw [step_both h, hd]
  rfl

/-- Settles O9: what is run of a decoded event is its execution, on the state without that input. -/
theorem stepExecutesTheDecodedInstruction : Obligations.StepExecutesTheDecodedInstruction := fun _ _ _ =>
  ⟨fun _ h hd => step_event_of_decode_ok h hd, fun _ h hd => step_both_of_decode_ok h hd⟩

/-! ### No instruction looks at the inputs to come -/

/-- An update of the state that each channel of the loop commutes with, the whole loop commutes with. -/
theorem visitAll_comm {f : State → State}
    (hf : ∀ w sum s, visit w sum (f s) = ((visit w sum s).1, f (visit w sum s).2))
    (ws : List CtxIdx) (sum : Half) (s : State) :
    visitAll ws sum (f s) = ((visitAll ws sum s).1, f (visitAll ws sum s).2) := by
  induction ws generalizing sum s with
  | nil => rfl
  | cons w ws ih => rw [visitAll, hf, ih, visitAll]

theorem playTick_with_inputs (s : State) (r : List Input) :
    playTick { s with inputs := r } = { playTick s with inputs := r } := by
  have hloop := visitAll_comm (f := fun s => { s with inputs := r }) (fun _ _ _ => rfl) (visited s) 0 s
  have hvisited : visited { s with inputs := r } = visited s := rfl
  simp only [playTick, hvisited, hloop, pack_eq]

theorem exec_with_inputs {i : Instr} {s t : State} (h : exec i s = .next t) (r : List Input) :
    exec i { s with inputs := r } = .next { t with inputs := r } := by
  cases i with
  | ecfg off mode rate =>
    cases h
    rw [exec_ecfg]
    split <;> rfl
  | play count ch0 ch1 ch2 ch3 ch4 =>
    cases h
    rw [exec_play]
    split <;> rfl
  | stop =>
    cases h
    rfl
  | wcfg w buf len step =>
    cases h
    rw [exec_wcfg]
    split <;> rfl
  | wstep w step =>
    cases h
    rw [exec_wstep]
    split <;> rfl
  | tick =>
    cases h
    rw [exec_tick, playTick_with_inputs]
    change Host.Outcome.next (if ticksDisabled s then _ else if silent s then _ else _) = _
    split
    · rfl
    · split <;> rfl

theorem exec_inputs {i : Instr} {s t : State} (h : exec i s = .next t) : t.inputs = s.inputs := by
  have hsame := h.symm.trans (exec_with_inputs h s.inputs)
  rw [Host.Outcome.next.inj hsame]

/-- Settles O10: the command does not look at the inputs to come, so leaving the tick as the next one changes nothing of
its effect; the next step executes that tick on what the command left. -/
theorem commandRunsBeforeASimultaneousTick : Obligations.CommandRunsBeforeASimultaneousTick := by
  intro s c rest i h hd
  obtain ⟨t, ht⟩ := exec_next i { s with inputs := rest }
  have hinputs : t.inputs = rest := exec_inputs ht
  have hrest : { t with inputs := rest } = t := by rw [← hinputs]
  refine ⟨t, ht, ?command, ?tick⟩
  case command => rw [step_both_of_decode_ok h hd, ← exec_with_inputs ht]
  case tick => rw [step_event_of_decode_ok (e := .tick 1) (i := .tick) rfl rfl, hrest]

/-- Settles O20: `STOP` overwrites what it writes with constants. -/
theorem stopIsIdempotent : Obligations.StopIsIdempotent := by
  intro s t h
  rw [exec_stop] at h ⊢
  cases h
  rfl

end Sys2Proof.Proofs
end

