-- ==== Sys2Proof/Proofs/Writers.lean ====
section
/-!
Proofs about who writes what (10_state.md section 2, 20_memory.md section 2, 42_tick_mix_output.md section 5): for each part
of the state, all that an instruction and a step can do to it.
-/

namespace Sys2Proof.Proofs

open Sys2Proof.Machine Sys2Proof.Laws

/-! ### Conditions -/

theorem ticksDisabled_eq_false_iff (s : State) : ticksDisabled s = false ↔ s.ten ≠ 0 := by
  rw [← Bool.not_eq_true, ticksDisabled_iff]

theorem silent_eq_false_iff (s : State) : silent s = false ↔ s.cnt ≠ 0 := by
  rw [← Bool.not_eq_true, silent_iff]

/-! ### Frames -/

/-- Every register of the block and the parameters are as before: only what is external, observed or to come may differ. -/
structure SameRegisters (s t : State) : Prop where
  contexts : SameContexts s t
  channels : SameChannels s t
  mixPair : SameMixPair s t
  configuration : SameConfiguration s t
  ten : t.ten = s.ten
  cfg : t.cfg = s.cfg

theorem sameRegisters_of_external_writes {s t : State}
    (h : t = { s with
      pLo := t.pLo, pHi := t.pHi, ram := t.ram, rom := t.rom, trace := t.trace, draws := t.draws,
      inputs := t.inputs }) :
    SameRegisters s t := by
  rw [h]
  exact ⟨ctx_congr rfl, ⟨rfl, rfl⟩, ⟨rfl, rfl⟩, ⟨rfl, rfl, rfl, rfl, rfl, rfl⟩, rfl, rfl⟩

theorem sameRegisters_setPort (s : State) (p : Port) (v : Byte) (rest : List Input) :
    SameRegisters s (State.setPort { s with inputs := rest } p v) :=
  sameRegisters_of_external_writes (by cases p <;> rfl)

theorem sameRegisters_hostStore (s : State) (space : Space) (addr : Half) (v : Byte) (rest : List Input) :
    SameRegisters s (hostStore space addr v { s with inputs := rest }) :=
  sameRegisters_of_external_writes (by cases space <;> rfl)

theorem sameRegisters_hostFree (s : State) (space : Space) (addr : Half) (rest : List Input) :
    SameRegisters s (hostFree space addr { s with inputs := rest }) :=
  sameRegisters_of_external_writes (by cases space <;> rfl)

/-- To the registers of the block a step does nothing, or what an instruction does, or a reset. -/
theorem step_registers_cases {s t : State} (h : step s = .next t) :
    SameRegisters s t ∨ (∃ i rest, nextInstr s = some i ∧ exec i { s with inputs := rest } = .next t) ∨
      (∃ rest, s.inputs = .reset :: rest ∧ t = resetBlock { s with inputs := rest }) := by
  obtain ht | hexec | ⟨p, v, rest, -, rfl⟩ | ⟨space, addr, v, rest, -, rfl⟩ | ⟨space, addr, rest, -, rfl⟩ | hreset :=
    step_cases h
  · exact .inl (sameRegisters_of_external_writes (by rw [ht]))
  · exact .inr (.inl hexec)
  · exact .inl (sameRegisters_setPort s p v rest)
  · exact .inl (sameRegisters_hostStore s space addr v rest)
  · exact .inl (sameRegisters_hostFree s space addr rest)
  · exact .inr (.inr hreset)

theorem playTick_memory (s : State) (space : Space) : (playTick s).memory space = s.memory space :=
  memory_congr (playTick_ram s) (playTick_rom s) space

/-- What a tick with channels leaves alone (42_tick_mix_output.md section 1). -/
theorem playTick_frame (s : State) :
    (playTick s).ten = s.ten ∧ SameChannels s (playTick s) ∧ SameMixPair s (playTick s) ∧
      SameConfiguration s (playTick s) ∧ SameMemory s (playTick s) ∧ SameSurroundings s (playTick s) := by
  refine ⟨playTick_ten s, ⟨playTick_cnt s, playTick_chsel s⟩, ⟨playTick_mixm s, playTick_mixs s⟩, ?config,
    fun space a => congrArg (readByte · a) (playTick_memory s space), ⟨playTick_cfg s, playTick_inputs s⟩⟩
  case config =>
    exact ⟨playTick_offset s, playTick_lmask s, playTick_umask s, playTick_rmode s, playTick_trate s,
      playTick_cfgWritten s⟩

/-! ### Accesses -/

/-- An instruction makes no access, or is a tick with channels. -/
theorem exec_noAccess_or_playTick {i : Instr} {s t : State} (h : exec i s = .next t) :
    (NoAccess s t ∧ SameSurroundings s t) ∨ (i = .tick ∧ s.ten ≠ 0 ∧ s.cnt ≠ 0 ∧ t = playTick s) := by
  obtain rfl | ⟨_, _, _, -, -, rfl⟩ | ⟨-, rfl⟩ | ⟨_, _, _, _, _, _, -, -, rfl⟩ | ⟨_, _, _, _, -, -, -, rfl⟩ |
    ⟨_, _, -, -, rfl⟩ | ⟨hi, hten, hcnt, ht⟩ := exec_cases h
  on_goal 7 => exact .inr ⟨hi, (ticksDisabled_eq_false_iff s).1 hten, (silent_eq_false_iff s).1 hcnt, ht⟩
  all_goals exact .inl ⟨noAccess_of_fields_eq rfl rfl rfl rfl rfl rfl, rfl, rfl⟩

/-- Settles O38: the one instruction that accesses anything is a tick with channels, and that writes no memory. -/
theorem commandsMakeNoAccess : Obligations.CommandsMakeNoAccess := by
  intro i s t h
  obtain ⟨haccess, hsame⟩ | ⟨rfl, -, -, rfl⟩ := exec_noAccess_or_playTick h
  · have ⟨_, _, _, _, hmem⟩ := haccess
    exact ⟨hmem, hsame, fun _ => haccess⟩
  · obtain ⟨-, -, -, -, hmem, hsame⟩ := playTick_frame s
    exact ⟨hmem, hsame, fun hi => absurd rfl hi⟩

/-- Settles O41: of the inputs only a store of the host to a port and a tick with channels reach a port. -/
theorem outputPersistsBetweenTicks : Obligations.OutputPersistsBetweenTicks := by
  intro s t h hport htick
  obtain ht | ⟨i, rest, hi, hexec⟩ | ⟨p, v, _, hin, -⟩ | ⟨_, _, _, _, -, rfl⟩ | ⟨_, _, _, -, rfl⟩ | ⟨_, -, rfl⟩ :=
    step_cases h
  · rw [ht]
    exact ⟨rfl, rfl⟩
  · obtain ⟨⟨-, -, hlo, hhi, -⟩, -⟩ | ⟨rfl, hten, hcnt, -⟩ := exec_noAccess_or_playTick hexec
    · exact ⟨hlo, hhi⟩
    · exact absurd (htick hi) (not_or.2 ⟨hten, hcnt⟩)
  · exact absurd (congrArg List.head? hin) (hport p v)
  · exact ⟨hostStore_pLo .., hostStore_pHi ..⟩
  · exact ⟨hostFree_pLo .., hostFree_pHi ..⟩
  · exact ⟨rfl, rfl⟩

/-! ### The channel list and the mix pair -/

/-- An instruction keeps the channel list and the mix pair, or is a `PLAY` or `STOP` that empties the list, or is an accepted
`PLAY`. -/
theorem exec_channels_cases {i : Instr} {s t : State} (h : exec i s = .next t) :
    (SameChannels s t ∧ SameMixPair s t) ∨
    (((∃ count ch0 ch1 ch2 ch3 ch4, i = .play count ch0 ch1 ch2 ch3 ch4) ∨ i = .stop) ∧ t.cnt = 0) ∨
    (∃ count ch0 ch1 ch2 ch3 ch4, i = .play count ch0 ch1 ch2 ch3 ch4 ∧
      (count.toNat ≤ 5 ∧ ∀ w ∈ [ch0, ch1, ch2, ch3, ch4].take count.toNat, w.toNat < s.cfg.nw) ∧
      t = bracket (installChannels count #v[ch0, ch1, ch2, ch3, ch4]) s) := by
  obtain rfl | ⟨_, _, _, -, -, rfl⟩ | ⟨hi, rfl⟩ | ⟨_, _, _, _, _, _, hi, hacc, ht⟩ | ⟨w, _, _, _, -, -, -, rfl⟩ |
    ⟨w, _, -, -, rfl⟩ | ⟨-, -, -, rfl⟩ := exec_cases h
  · exact .inl ⟨⟨rfl, rfl⟩, rfl, rfl⟩
  · exact .inl ⟨⟨rfl, rfl⟩, rfl, rfl⟩
  · exact .inr (.inl ⟨hi, rfl⟩)
  · exact .inr (.inr ⟨_, _, _, _, _, _, hi, (playRejected_eq_false_iff ..).1 hacc, ht⟩)
  · exact .inl ⟨⟨rfl, rfl⟩, rfl, rfl⟩
  · exact .inl ⟨⟨rfl, rfl⟩, rfl, rfl⟩
  · obtain ⟨-, hch, hmix, -⟩ := playTick_frame s
    exact .inl ⟨hch, hmix⟩

/-- Settles O39: of the instructions only `PLAY` and `STOP` write the list or the pair, and nothing else but a reset
writes a register. -/
theorem onlyPlayAndStopChangeTheChannels : Obligations.OnlyPlayAndStopChangeTheChannels := by
  intro s t h hreset hstop hplay
  obtain hsame | ⟨i, rest, hi, hexec⟩ | ⟨_, hin, -⟩ := step_registers_cases h
  · exact ⟨hsame.channels, hsame.mixPair⟩
  · obtain hsame | ⟨⟨_, _, _, _, _, _, rfl⟩ | rfl, -⟩ | ⟨_, _, _, _, _, _, rfl, -⟩ := exec_channels_cases hexec
    · exact hsame
    · exact absurd hi (hplay _ _ _ _ _ _)
    · exact absurd hi hstop
    · exact absurd hi (hplay _ _ _ _ _ _)
  · exact absurd (congrArg List.head? hin) hreset

/-! ### The contexts -/

theorem exec_ctx_cases {i : Instr} {s t : State} (h : exec i s = .next t) (w : CtxIdx) :
    t.ctx w = s.ctx w ∨
    (∃ buf len step, i = .wcfg w buf len step ∧ w.toNat < s.cfg.nw ∧ 1 ≤ len.toNat ∧
      t.ctx w = configuredCtx buf len step) ∨
    (∃ step, i = .wstep w step ∧ w.toNat < s.cfg.nw ∧
      t.ctx w = { s.ctx w with step := step, stepWritten := true }) ∨
    (i = .tick ∧ s.ten ≠ 0 ∧ s.cnt ≠ 0 ∧ t.ctx w = stepCtx^[(visited s).count w] (s.ctx w)) := by
  obtain rfl | ⟨_, _, _, -, -, rfl⟩ | ⟨-, rfl⟩ | ⟨_, _, _, _, _, _, -, -, rfl⟩ |
    ⟨v, buf, len, step, rfl, hv, hlen, rfl⟩ | ⟨v, step, rfl, hv, rfl⟩ | ⟨hi, hten, hcnt, rfl⟩ := exec_cases h
  · exact .inl rfl
  · exact .inl (ctx_configureEngine ..)
  · exact .inl (ctx_bracket_emptyChannels s w)
  · exact .inl (ctx_bracket_installChannels ..)
  · by_cases hw : w = v
    · subst hw
      exact .inr (.inl ⟨buf, len, step, rfl, (ctxExists_iff ..).1 hv, (lenZero_eq_false_iff len).1 hlen,
        ctx_setCtx_same ..⟩)
    · exact .inl (ctx_setCtx_ne s _ hw)
  · by_cases hw : w = v
    · subst hw
      exact .inr (.inr (.inl ⟨step, rfl, (ctxExists_iff ..).1 hv, ctx_setCtx_same ..⟩))
    · exact .inl (ctx_setCtx_ne s _ hw)
  · exact .inr (.inr (.inr ⟨hi, (ticksDisabled_eq_false_iff s).1 hten, (silent_eq_false_iff s).1 hcnt,
      ctx_playTick s w⟩))

/-- All that a step can do to one context: nothing, its accepted `WCFG` or `WSTEP`, a tick with channels, a reset. -/
theorem step_ctx_cases {s t : State} (h : step s = .next t) (w : CtxIdx) :
    t.ctx w = s.ctx w ∨
    (∃ buf len step, nextInstr s = some (.wcfg w buf len step) ∧ w.toNat < s.cfg.nw ∧ 1 ≤ len.toNat ∧
      t.ctx w = configuredCtx buf len step) ∨
    (∃ step, nextInstr s = some (.wstep w step) ∧ w.toNat < s.cfg.nw ∧
      t.ctx w = { s.ctx w with step := step, stepWritten := true }) ∨
    (nextInstr s = some .tick ∧ s.ten ≠ 0 ∧ s.cnt ≠ 0 ∧ t.ctx w = stepCtx^[(visited s).count w] (s.ctx w)) ∨
    (s.inputs.head? = some .reset ∧ t.ctx w = Ctx.reset) := by
  obtain hsame | ⟨i, rest, hi, hexec⟩ | ⟨rest, hin, rfl⟩ := step_registers_cases h
  · exact .inl (hsame.contexts w)
  · obtain hw | ⟨buf, len, step, rfl, hw⟩ | ⟨step, rfl, hw⟩ | ⟨rfl, hw⟩ := exec_ctx_cases hexec w
    · exact .inl hw
    · exact .inr (.inl ⟨buf, len, step, hi, hw⟩)
    · exact .inr (.inr (.inl ⟨step, hi, hw⟩))
    · exact .inr (.inr (.inr (.inl ⟨hi, hw⟩)))
  · exact .inr (.inr (.inr (.inr ⟨congrArg List.head? hin, ctx_resetBlock _ w⟩)))

/-- Settles O40: in each of the cases of a step, the fields a context gets are its old ones but for those the case
writes. -/
theorem contextFieldsHaveTheirWriters : Obligations.ContextFieldsHaveTheirWriters := by
  intro s t w h hreset hwcfg
  obtain hw | ⟨buf, len, stp, hi, -⟩ | ⟨stp, hi, -, hw⟩ | ⟨hi, -, -, hw⟩ | ⟨hin, -⟩ := step_ctx_cases h w
  · rw [hw]
    exact ⟨rfl, rfl, fun _ => rfl, fun _ => ⟨rfl, rfl⟩⟩
  · exact absurd hi (hwcfg buf len stp)
  · rw [hw]
    exact ⟨rfl, rfl, fun hwstep => absurd hi (hwstep stp), fun _ => ⟨rfl, rfl⟩⟩
  · obtain ⟨hbuf, hlen, hstep, -, -⟩ := stepCtx_iterate_keeps ((visited s).count w) (s.ctx w)
    rw [hw]
    refine ⟨hbuf, hlen, fun _ => hstep, fun hlisted => ?_⟩
    have hnot : w ∉ visited s := hlisted.resolve_left fun hne => hne hi
    rw [List.count_eq_zero_of_not_mem hnot]
    exact ⟨rfl, rfl⟩
  · exact absurd hin hreset

end Sys2Proof.Proofs
end

