-- ==== Sys2Proof/Proofs/Invariants.lean ====
section
/-!
Proofs about the invariants (10_state.md section 5, 70 section 3): they hold after reset, and every step keeps each of them.
-/

namespace Sys2Proof.Proofs

open Sys2Proof.Machine Sys2Proof.Laws

/-! ### The parameters and the memories -/

theorem step_cfg {s t : State} (h : step s = .next t) : t.cfg = s.cfg := by
  obtain hsame | ⟨i, rest, -, hexec⟩ | ⟨_, -, rfl⟩ := step_registers_cases h
  · exact hsame.cfg
  · obtain ⟨-, ⟨hcfg, -⟩, -⟩ := commandsMakeNoAccess i _ t hexec
    exact hcfg
  · rfl

theorem exec_memory {i : Instr} {s t : State} (h : exec i s = .next t) (space : Space) :
    t.memory space = s.memory space := by
  obtain rfl | ⟨_, _, _, -, -, rfl⟩ | ⟨-, rfl⟩ | ⟨_, _, _, _, _, _, -, -, rfl⟩ | ⟨_, _, _, _, -, -, -, rfl⟩ |
    ⟨_, _, -, -, rfl⟩ | ⟨-, -, -, rfl⟩ := exec_cases h
  on_goal 7 => exact playTick_memory s space
  all_goals exact memory_congr rfl rfl space

/-- Every step keeps the canonical form of both memories. -/
theorem step_memory_wf {s t : State} (hwf : ∀ space, Memory.wf (s.memory space)) (h : step s = .next t)
    (space : Space) : Memory.wf (t.memory space) := by
  obtain ht | ⟨_, _, -, hexec⟩ | ⟨_, _, _, -, rfl⟩ | ⟨sp, addr, v, rest, -, rfl⟩ |
    ⟨sp, addr, rest, -, rfl⟩ | ⟨_, -, rfl⟩ := step_cases h
  · rw [ht]
    exact hwf space
  · rw [exec_memory hexec]
    exact hwf space
  · rw [memory_congr (setPort_ram ..) (setPort_rom ..)]
    exact hwf space
  · exact hostStore_wf (s := { s with inputs := rest }) hwf sp addr v space
  · exact hostFree_wf (s := { s with inputs := rest }) hwf sp addr space
  · exact hwf space

/-! ### The channel list and the mix pair: I-a and I-b -/

/-- I-a and I-b. -/
def ChannelsValid (s : State) : Prop := s.cnt.toNat ≤ 5 ∧ s.channelsConsistent

theorem channelsValid_of_same {s t : State} (hv : ChannelsValid s) (hch : SameChannels s t)
    (hmix : SameMixPair s t) (hcfg : t.cfg = s.cfg) : ChannelsValid t := by
  obtain ⟨hcnt, hchsel⟩ := hch
  obtain ⟨hmixm, hmixs⟩ := hmix
  simpa only [ChannelsValid, State.channelsConsistent, visited, hcnt, hchsel, hmixm, hmixs, hcfg] using hv

/-- An empty list is valid whatever the mix pair is. -/
theorem channelsValid_of_cnt_eq_zero {s : State} (h : s.cnt = 0) : ChannelsValid s := by
  have hcnt : s.cnt.toNat = 0 := by rw [h]; rfl
  exact ⟨by omega, fun hpos => by omega⟩

/-- An accepted `PLAY` installs the pair of its count and indices it has checked (R144, R146). -/
theorem channelsValid_bracket_installChannels {count : BitVec 8} {chs : Vector CtxIdx 5} {s : State}
    (hcount : count.toNat ≤ 5) (hexist : ∀ w ∈ chs.toList.take count.toNat, w.toNat < s.cfg.nw) :
    ChannelsValid (bracket (installChannels count chs) s) := by
  have hcnt := bracket_installChannels_cnt_toNat hcount chs s
  refine ⟨hcnt ▸ hcount, fun _ => ⟨by rw [hcnt]; rfl, ?_⟩⟩
  rw [visited_bracket_installChannels hcount]
  exact hexist

theorem step_channelsValid {s t : State} (hv : ChannelsValid s) (h : step s = .next t) :
    ChannelsValid t := by
  obtain hsame | ⟨i, rest, -, hexec⟩ | ⟨_, -, rfl⟩ := step_registers_cases h
  · exact channelsValid_of_same hv hsame.channels hsame.mixPair hsame.cfg
  · obtain ⟨hch, hmix⟩ | ⟨-, hcnt⟩ | ⟨_, _, _, _, _, _, -, ⟨hcount, hexist⟩, rfl⟩ := exec_channels_cases hexec
    · exact channelsValid_of_same hv hch hmix (step_cfg h)
    · exact channelsValid_of_cnt_eq_zero hcnt
    · exact channelsValid_bracket_installChannels hcount hexist
  · exact channelsValid_of_cnt_eq_zero rfl

/-! ### The window: I-e -/

theorem windowConsistent_of_same {s t : State} (hv : s.windowConsistent) (h : SameConfiguration s t) :
    t.windowConsistent := by
  obtain ⟨hoffset, hlmask, humask, -, -, hwritten⟩ := h
  simpa only [State.windowConsistent, hoffset, hlmask, humask, hwritten] using hv

theorem windowConsistent_configureEngine {off : BitVec 3} (h : offsetLegal off = true) (mode : BitVec 1)
    (rate : BitVec 8) (s : State) : (configureEngine off mode rate s).windowConsistent := fun _ =>
  have ⟨hmin, hmax⟩ := (offsetLegal_iff off).1 h
  ⟨hmin, hmax, lowerMask_toNat, upperMask_toNat⟩

theorem exec_windowConsistent {i : Instr} {s t : State} (hv : s.windowConsistent) (h : exec i s = .next t) :
    t.windowConsistent := by
  obtain rfl | ⟨_, mode, rate, -, hoff, rfl⟩ | ⟨-, rfl⟩ | ⟨_, _, _, _, _, _, -, -, rfl⟩ | ⟨_, _, _, _, -, -, -, rfl⟩ |
    ⟨_, _, -, -, rfl⟩ | ⟨-, -, -, rfl⟩ := exec_cases h
  on_goal 7 =>
    obtain ⟨-, -, -, hconfig, -⟩ := playTick_frame s
    exact windowConsistent_of_same hv hconfig
  on_goal 2 => exact windowConsistent_configureEngine hoff mode rate s
  all_goals exact hv

theorem step_windowConsistent {s t : State} (hv : s.windowConsistent) (h : step s = .next t) :
    t.windowConsistent := by
  obtain hsame | ⟨i, rest, -, hexec⟩ | ⟨_, -, rfl⟩ := step_registers_cases h
  · exact windowConsistent_of_same hv hsame.configuration
  · exact exec_windowConsistent (s := { s with inputs := rest }) hv hexec
  · exact nofun

/-! ### The contexts: I-d, and the slots at or above NW -/

theorem step_ctx_consistent {s t : State} {w : CtxIdx} (hv : (s.ctx w).consistent) (h : step s = .next t) :
    (t.ctx w).consistent := by
  obtain hw | ⟨buf, len, stp, -, -, hlen, hw⟩ | ⟨stp, -, -, hw⟩ | ⟨-, -, -, hw⟩ | ⟨-, hw⟩ := step_ctx_cases h w
  · rwa [hw]
  · rw [hw]
    exact fun _ => ⟨hlen, rfl⟩
  · rw [hw]
    intro hpos
    obtain ⟨hlen, -⟩ := hv hpos
    exact ⟨hlen, rfl⟩
  · obtain ⟨-, hlen, -, hpos, hstp⟩ := stepCtx_iterate_keeps ((visited s).count w) (s.ctx w)
    rw [hw, Ctx.consistent, hlen, hpos, hstp]
    exact hv
  · rw [hw]
    exact nofun

/-- A slot at or above `NW` stays as reset left it: the commands check the index, and a tick finds none of them listed. -/
theorem step_ctx_absent {s t : State} {w : CtxIdx} (hlist : s.channelsConsistent) (hw : s.cfg.nw ≤ w.toNat)
    (hv : s.ctx w = Ctx.reset) (h : step s = .next t) : t.ctx w = Ctx.reset := by
  obtain ht | ⟨_, _, _, -, hlt, -⟩ | ⟨_, -, hlt, -⟩ | ⟨-, -, hcnt, ht⟩ | ⟨-, ht⟩ := step_ctx_cases h w
  · exact ht.trans hv
  · omega
  · omega
  · have hpos : 0 < s.cnt.toNat := Nat.pos_of_ne_zero fun h0 => hcnt (BitVec.eq_of_toNat_eq h0)
    obtain ⟨-, hexist⟩ := hlist hpos
    have hnot : w ∉ visited s := fun hmem => Nat.not_lt_of_le hw (hexist w hmem)
    rw [ht, List.count_eq_zero_of_not_mem hnot]
    exact hv
  · exact ht

/-! ### The invariant -/

theorem inv_memory_wf {s : State} (h : s.Inv) : ∀ space, Memory.wf (s.memory space)
  | .ram => h.ram_wf
  | .rom => h.rom_wf

/-- Settles O12: a step keeps each part of the invariant; the slots at or above `NW` need the listed indices to exist. -/
theorem stepKeepsTheInvariant : Obligations.StepKeepsTheInvariant := by
  intro s t hinv h
  obtain ⟨hcnt, hlist⟩ := step_channelsValid ⟨hinv.cnt_le, hinv.channels⟩ h
  have hwf := step_memory_wf (inv_memory_wf hinv) h
  refine ⟨hcnt, hlist, fun w => step_ctx_consistent (hinv.lengths w) h, step_windowConsistent hinv.window h,
    fun w hw => ?absent, hwf .ram, hwf .rom⟩
  case absent =>
    rw [step_cfg h] at hw
    exact step_ctx_absent hinv.channels hw (hinv.absent w hw) h

/-- Settles O13: a `WCFG` starts at location 0 of a buffer that is not empty, and within the host's bounds every step of a
listed context is legal. -/
theorem stepKeepsLocationsInsideBuffers : Obligations.StepKeepsLocationsInsideBuffers := by
  intro s t hloc hbounds h w
  obtain hw | ⟨buf, len, stp, -, -, hlen, hw⟩ | ⟨stp, -, -, hw⟩ | ⟨hi, hten, hcnt, hw⟩ | ⟨-, hw⟩ := step_ctx_cases h w
  · rw [hw]
    exact hloc w
  · rw [hw]
    exact fun _ => hlen
  · rw [hw]
    exact hloc w
  · obtain ⟨-, hlen, -, hpos, -⟩ := stepCtx_iterate_keeps ((visited s).count w) (s.ctx w)
    rw [hw, hlen, hpos]
    intro hwritten
    by_cases hmem : w ∈ visited s
    · exact stepCtx_iterate_loc_lt _ (hbounds hi ((BitVec.eq_zero_or_eq_one _).resolve_left hten) hcnt w hmem) (hloc w hwritten)
    · rw [List.count_eq_zero_of_not_mem hmem]
      exact hloc w hwritten
  · rw [hw]
    exact nofun

/-! ### Reset -/

/-- Settles O3: at reset the list is empty, no register is marked as written, and nothing is provided. -/
theorem resetSatisfiesTheInvariant : Obligations.ResetSatisfiesTheInvariant := by
  obtain ⟨hcnt, hlist⟩ := channelsValid_of_cnt_eq_zero (s := State.reset) rfl
  refine ⟨⟨hcnt, hlist, fun w => ?lengths, nofun, fun w _ => ctx_reset w, wf_nil, wf_nil⟩, fun w => ?locations⟩
  all_goals
    rw [ctx_reset]
    exact nofun

/-- Settles O2: the reset event keeps what is not the block's and gives the registers the values of the reset state. -/
theorem resetEventRestoresTheResetRegisters : Obligations.ResetEventRestoresTheResetRegisters := by
  intro s rest h
  exact ⟨_, step_reset h, rfl, rfl, rfl, rfl, chsel_reset, rfl, rfl, rfl, ⟨rfl, rfl, rfl, rfl, rfl, rfl⟩,
    ctx_congr rfl, noAccess_of_fields_eq rfl rfl rfl rfl rfl rfl⟩

end Sys2Proof.Proofs
end

