-- ==== Sys2Proof/Proofs/TickEffects.lean ====
section
/-!
Proofs about a tick with channels (42_tick_mix_output.md sections 1 to 4): what it reads, what it writes to the contexts and
the ports, and what it does in the spec's defined domain (70 sections 2 and 3).
-/

namespace Sys2Proof.Proofs

open Sys2Proof.Machine Sys2Proof.Laws

/-! ### A tick with channels is the loop, the mixer and PACK -/

theorem exec_tick_of_channels {s : State} (hten : s.ten = 1) (hcnt : s.cnt ≠ 0) :
    exec .tick s = .next (playTick s) := by
  rw [exec_tick, (ticksDisabled_eq_false_iff s).2 (by rw [hten]; decide), (silent_eq_false_iff s).2 hcnt]
  rfl

/-- The byte a tick with channels puts out: the mixed sum of the channel loop. -/
def tickOutput (s : State) : Byte := mix s.mixm s.mixs (visitAll (visited s) 0 s).1

theorem playTick_eq_pack (s : State) : playTick s = pack (tickOutput s) (visitAll (visited s) 0 s).2 := by
  simp only [playTick, tickOutput, visitAll_mixm, visitAll_mixs]

theorem playTick_pLo (s : State) : (playTick s).pLo = packLo s.lmask s.offset (tickOutput s) s.pLo := by
  rw [playTick_eq_pack, pack_eq]
  simp only [visitAll_lmask, visitAll_offset, visitAll_pLo]

theorem playTick_pHi (s : State) : (playTick s).pHi = packHi s.umask s.offset (tickOutput s) s.pHi := by
  rw [playTick_eq_pack, pack_eq]
  simp only [visitAll_umask, visitAll_offset, visitAll_pHi]

/-- The reads of the loop come first, then the four port accesses of `PACK`. -/
theorem playTick_trace (s : State) :
    (playTick s).trace = (visitAll (visited s) 0 s).2.trace ++
      [.ioRead .lo s.pLo, .ioWrite .lo (playTick s).pLo, .ioRead .hi s.pHi, .ioWrite .hi (playTick s).pHi] := by
  rw [playTick_pLo, playTick_pHi, playTick_eq_pack, pack_eq]
  simp only [visitAll_lmask, visitAll_umask, visitAll_offset, visitAll_pLo, visitAll_pHi]

theorem playTick_draws (s : State) : (playTick s).draws = (visitAll (visited s) 0 s).2.draws := by
  rw [playTick_eq_pack, pack_draws]

/-- Settles O32: the loop steps each context once per listing, and the frame of the tick is the rest. -/
theorem tickStepsTheListedContextsAlone : Obligations.TickStepsTheListedContextsAlone :=
  fun s hten hcnt => ⟨_, exec_tick_of_channels hten hcnt, ctx_playTick s, playTick_frame s⟩

/-! ### What it reads and puts out -/

theorem length_visited {s : State} (h : s.cnt.toNat ≤ 5) : (visited s).length = s.cnt.toNat := by
  simp [visited, h]

theorem sum_samples_le (samples : List Byte) : (samples.map BitVec.toNat).sum ≤ samples.length * 255 := by
  have h : ∀ n ∈ samples.map BitVec.toNat, n ≤ 255 := by
    intro n hn
    obtain ⟨b, -, rfl⟩ := List.mem_map.1 hn
    exact Nat.le_of_lt_succ b.isLt
  simpa using List.sum_le_card_nsmul _ 255 h

/-- The mixer on a sum that fits 16 bits is the shifted product, cut to a byte. -/
theorem mix_ofNat {n : Nat} (h : n < 2 ^ 16) (m : BitVec 8) (k : BitVec 4) :
    mix m k (BitVec.ofNat 16 n) = BitVec.ofNat 8 (n * m.toNat / 2 ^ k.toNat) := by
  rw [mix, BitVec.toNat_ofNat, Nat.mod_eq_of_lt h, Nat.shiftRight_eq_div_pow]

/-- Settles O31: the loop reads one byte per channel and adds them, at most five bytes fit its 16 bits, and `PACK` makes
the four port accesses. -/
theorem tickReadsMixesAndWritesThePorts : Obligations.TickReadsMixesAndWritesThePorts := by
  intro s hten hcnt hle ws space addr
  obtain ⟨samples, hlen, hsum, htrace, hread, -⟩ := visitAll_reads (visited s) 0 s
  rw [length_visited hle] at hlen htrace hread
  have hbound := sum_samples_le samples
  have hout : tickOutput s =
      BitVec.ofNat 8 ((samples.map BitVec.toNat).sum * s.mixm.toNat / 2 ^ s.mixs.toNat) := by
    rw [tickOutput, hsum, zero_add, mix_ofNat (by omega)]
  refine ⟨_, samples, exec_tick_of_channels hten hcnt, hlen, hread, ?lo, ?hi, ?trace⟩
  case lo => rw [playTick_pLo, hout]; rfl
  case hi => rw [playTick_pHi, hout]; rfl
  case trace => rw [playTick_trace, htrace]; rfl

/-! ### The window -/

theorem lowerMask_bit (off : BitVec 3) (n : Nat) : (lowerMask off).getLsbD n = decide (n < off.toNat) := by
  rw [← BitVec.testBit_toNat, lowerMask_toNat, Nat.testBit_two_pow_sub_one]

theorem upperMask_bit (off : BitVec 3) {n : Nat} (hn : n < 8) :
    (upperMask off).getLsbD n = decide (off.toNat ≤ n) := by
  have hfull : (0xFF#8).getLsbD (n - off.toNat) = true := by
    rw [show (0xFF#8) = BitVec.allOnes 8 from rfl, BitVec.getLsbD_allOnes, decide_eq_true (by omega)]
  rw [upperMask, BitVec.getLsbD_shiftLeft, hfull, decide_eq_true hn, Bool.and_true, Bool.true_and, ← decide_not,
    decide_eq_decide, Nat.not_lt]

/-- The lines after a tick with channels: bit `n - OFFSET` of the output in the window, the old line outside. -/
theorem line_pack (off : BitVec 3) (out a b : Byte) {n : Nat} (hn : n < 16) :
    (packHi (upperMask off) off out b ++ packLo (lowerMask off) off out a : BitVec 16).getLsbD n =
      if off.toNat ≤ n ∧ n < off.toNat + 8 then out.getLsbD (n - off.toNat)
      else (b ++ a : BitVec 16).getLsbD n := by
  have hoff : off.toNat < 8 := off.isLt
  rw [BitVec.getLsbD_append, BitVec.getLsbD_append]
  by_cases hlow : n < 8
  · rw [if_pos hlow, if_pos hlow, packLo, BitVec.getLsbD_or, BitVec.getLsbD_and, lowerMask_bit,
      BitVec.getLsbD_shiftLeft]
    by_cases hbelow : n < off.toNat
    · simp [hbelow]
    · simp [hlow, hbelow, Nat.le_of_not_lt hbelow, show n < off.toNat + 8 by omega]
  · have hindex : 8 - off.toNat + (n - 8) = n - off.toNat := by omega
    rw [if_neg hlow, if_neg hlow, packHi, BitVec.getLsbD_or, BitVec.getLsbD_and, upperMask_bit off (by omega),
      BitVec.getLsbD_ushiftRight, hindex]
    by_cases habove : off.toNat ≤ n - 8
    · simp [habove, show ¬ n < off.toNat + 8 by omega, BitVec.getLsbD_of_ge out (n - off.toNat) (by omega)]
    · simp [habove, show n < off.toNat + 8 by omega, show off.toNat ≤ n by omega]

/-- With a consistent window the masks are those of the offset (I-e). -/
theorem masks_of_windowConsistent {s : State} (hw : s.windowConsistent) (h : s.cfgWritten = true) :
    s.lmask = lowerMask s.offset ∧ s.umask = upperMask s.offset := by
  obtain ⟨-, -, hl, hu⟩ := hw h
  have hlmask : s.lmask = lowerMask s.offset := BitVec.eq_of_toNat_eq (hl.trans lowerMask_toNat.symm)
  exact ⟨hlmask, BitVec.eq_of_toNat_eq (by rw [hu, hlmask, upperMask_toNat])⟩

theorem line_playTick {s : State} (hw : s.windowConsistent) (h : s.cfgWritten = true) {n : Nat} (hn : n < 16) :
    ((playTick s).pHi ++ (playTick s).pLo : BitVec 16).getLsbD n =
      if s.offset.toNat ≤ n ∧ n < s.offset.toNat + 8 then (tickOutput s).getLsbD (n - s.offset.toNat)
      else (s.pHi ++ s.pLo : BitVec 16).getLsbD n := by
  obtain ⟨hlmask, humask⟩ := masks_of_windowConsistent hw h
  rw [playTick_pLo, playTick_pHi, hlmask, humask, line_pack _ _ _ _ hn]

/-- Replacing the eight lines of a window by a byte, as one 16-bit word and line by line. -/
theorem line_replace_window (k : Nat) (out : Byte) (old : BitVec 16) {n : Nat} (hn : n < 16) :
    ((old &&& ~~~((0xFF : BitVec 16) <<< k)) ||| (out.setWidth 16 <<< k)).getLsbD n =
      if k ≤ n ∧ n < k + 8 then out.getLsbD (n - k) else old.getLsbD n := by
  have hbyte : (0xFF : BitVec 16).getLsbD (n - k) = decide (n - k < 8) := by
    rw [show (0xFF : BitVec 16) = (BitVec.allOnes 8).setWidth 16 from rfl, BitVec.getLsbD_setWidth,
      BitVec.getLsbD_allOnes, decide_eq_true (show n - k < 16 by omega), Bool.true_and]
  simp only [BitVec.getLsbD_or, BitVec.getLsbD_and, BitVec.getLsbD_not, BitVec.getLsbD_shiftLeft,
    BitVec.getLsbD_setWidth, hbyte]
  by_cases hk : k ≤ n
  · by_cases hw : n < k + 8
    · simp [hn, hk, hw, show ¬ n < k by omega, show n - k < 8 by omega, show n - k < 16 by omega]
    · simp [hn, hk, hw, show ¬ n - k < 8 by omega, BitVec.getLsbD_of_ge out (n - k) (by omega)]
  · simp [hn, hk, show n < k by omega]

/-- Settles O33: in the window a line carries its bit of the output and outside it is the old one, whether the lines are
read off the two ports or off the 16-bit word. -/
theorem tickDrivesTheWindowAndKeepsTheOtherLines : Obligations.TickDrivesTheWindowAndKeepsTheOtherLines := by
  intro s hten hcnt hwritten hwindow out
  have hline {n : Nat} (hn : n < 16) := line_playTick hwindow hwritten hn
  obtain ⟨-, hmax, -⟩ := hwindow hwritten
  refine ⟨_, exec_tick_of_channels hten hcnt, BitVec.eq_of_getLsbD_eq fun n hn => ?word, fun b hb => ?inside,
    fun n hn houtside => ?outside⟩
  case word => exact (hline hn).trans (line_replace_window _ _ _ hn).symm
  case inside =>
    rw [hline (by omega), if_pos (by omega), Nat.add_sub_cancel_left]
    rfl
  case outside => rw [hline hn, if_neg (by omega)]

/-! ### Lines outside the window do not reach the output -/

theorem playTick_with_ports (s : State) (lo hi : Byte) :
    tickOutput { s with pLo := lo, pHi := hi } = tickOutput s ∧
      (playTick { s with pLo := lo, pHi := hi }).draws = (playTick s).draws := by
  have hloop := visitAll_comm (f := fun s => { s with pLo := lo, pHi := hi }) (fun _ _ _ => rfl) (visited s) 0 s
  have hvisited : visited { s with pLo := lo, pHi := hi } = visited s := rfl
  simp only [tickOutput, playTick_draws, hvisited, hloop, and_self]

/-- Settles O34: the loop does not look at the ports, and `PACK` looks at them through the masks. -/
theorem windowBitsDoNotReachTheOutput : Obligations.WindowBitsDoNotReachTheOutput := by
  intro s t lo hi hten hcnt hlo hhi h
  obtain rfl : playTick s = t := Host.Outcome.next.inj ((exec_tick_of_channels hten hcnt).symm.trans h)
  obtain ⟨hout, hdraws⟩ := playTick_with_ports s lo hi
  refine ⟨_, exec_tick_of_channels (s := { s with pLo := lo, pHi := hi }) hten hcnt, ?lo, ?hi, fun w => ?contexts,
    hdraws⟩
  case lo => simp only [playTick_pLo, hout, packLo, hlo]
  case hi => simp only [playTick_pHi, hout, packHi, hhi]
  case contexts =>
    rw [ctx_playTick, ctx_playTick]
    rfl

/-! ### The defined domain -/

/-- A context that a tick may visit in the defined domain: the host keeps its bounds, the location is an index of the
buffer, and the buffer is provided (70 R242 to R244). -/
structure SafeCtx (s : State) (x : Ctx) : Prop where
  bounds : x.HostBounds
  loc_lt : x.loc.toNat < x.len.toNat
  provided : s.bufferProvided x

theorem safeCtx_stepCtx_iterate {s : State} {x : Ctx} (h : SafeCtx s x) (n : Nat) : SafeCtx s (stepCtx^[n] x) := by
  obtain ⟨hbounds, hloc⟩ := stepCtx_iterate_hostBounds n h.bounds h.loc_lt
  obtain ⟨hbuf, hlen, -⟩ := stepCtx_iterate_keeps n x
  refine ⟨hbounds, hloc, ?_⟩
  rw [State.bufferProvided, hbuf, hlen]
  exact h.provided

theorem sampleAddr_toNat_of_safe {s : State} {x : Ctx} (h : SafeCtx s x) :
    (sampleAddr x).toNat = x.buf.toNat + x.loc.toNat := by
  have hloc := h.loc_lt
  have hinside := h.bounds.inside
  exact BitVec.toNat_add_of_lt (by omega)

theorem read_of_safe {s : State} {x : Ctx} (h : SafeCtx s x) :
    (readByte (s.memory (spaceOf s.rmode)) (sampleAddr x).toNat).isSome = true := by
  rw [sampleAddr_toNat_of_safe h]
  exact h.provided _ h.loc_lt

/-- Every channel of a safe tick finds a safe context, however often it is listed before. -/
theorem safeCtx_foundCtx {s : State} (hten : s.ten = 1) (hcnt : s.cnt ≠ 0) (hsafe : s.TickSafe) {i : Nat}
    (hi : i < (visited s).length) : SafeCtx s (foundCtx s (visited s) i) := by
  obtain hdisabled | hsilent | ⟨-, hlisted⟩ := hsafe
  · rw [hten] at hdisabled
    exact absurd hdisabled (by decide)
  · exact absurd hsilent hcnt
  · have hmem : (visited s).getD i 0 ∈ visited s := by
      rw [List.getD_eq_getElem _ _ hi]
      exact List.getElem_mem hi
    obtain ⟨hbounds, hloc, hprovided⟩ := hlisted _ hmem
    exact safeCtx_stepCtx_iterate ⟨hbounds, hloc, hprovided⟩ _

/-- Settles O35: the contexts found are safe, so each is legal and its address lies in a provided buffer; the loop then
draws nothing. -/
theorem safeTickReadsInsideItsBuffers : Obligations.SafeTickReadsInsideItsBuffers := by
  intro s hten hcnt hle hsafe
  have hfound : ∀ i < s.cnt.toNat, SafeCtx s (foundCtx s (visited s) i) := fun i hi =>
    safeCtx_foundCtx hten hcnt hsafe (length_visited hle ▸ hi)
  obtain ⟨samples, -, -, -, -, hdraws⟩ := visitAll_reads (visited s) 0 s
  refine ⟨_, exec_tick_of_channels hten hcnt, ?draws, fun i hi => ?reads⟩
  case draws =>
    rw [playTick_draws]
    exact hdraws fun i hi => read_of_safe (hfound i (length_visited hle ▸ hi))
  case reads =>
    have hx := hfound i hi
    exact ⟨tickLegal_of_hostBounds hx.bounds hx.loc_lt, sampleAddr_toNat_of_safe hx,
      Nat.add_lt_add_left hx.loc_lt _, hx.bounds.inside, read_of_safe hx⟩

end Sys2Proof.Proofs
end

