-- ==== Sys2Proof/Proofs/Mixer.lean ====
section
/-!
Proofs about the mixer (42_tick_mix_output.md section 3): with a legal table it loses no bit, and with the default table its
error is bounded.
-/

namespace Sys2Proof.Proofs

open Sys2Proof.Machine Sys2Proof.Laws

/-- R179 of one count, read off a legal choice of the parameters. -/
theorem pairFits_of_legal {c : Config} (h : c.legal = true) {n : Nat} (hmin : 1 ≤ n) (hmax : n ≤ 5) :
    255 * n * (c.mixPair n).1.toNat < 2 ^ 16 ∧
      255 * n * (c.mixPair n).1.toNat / 2 ^ (c.mixPair n).2.toNat ≤ 255 := by
  simp only [Config.legal, Bool.and_eq_true, List.all_eq_true, List.mem_range'_1] at h
  obtain ⟨-, hfits⟩ := h
  simpa [Config.pairFits, Nat.shiftRight_eq_div_pow] using hfits n ⟨hmin, by omega⟩

/-- With a legal table the sum of full-scale samples bounds every other sum, so that nothing is cut off. -/
theorem mix_of_legal {c : Config} {n sum : Nat} (h : c.legal = true) (hmin : 1 ≤ n) (hmax : n ≤ 5)
    (hsum : sum ≤ 255 * n) :
    sum * (c.mixPair n).1.toNat < 2 ^ 16 ∧
      (mix (c.mixPair n).1 (c.mixPair n).2 (BitVec.ofNat 16 sum)).toNat =
        sum * (c.mixPair n).1.toNat / 2 ^ (c.mixPair n).2.toNat := by
  obtain ⟨hproduct, hbyte⟩ := pairFits_of_legal h hmin hmax
  have hle : sum * (c.mixPair n).1.toNat ≤ 255 * n * (c.mixPair n).1.toNat := Nat.mul_le_mul_right _ hsum
  refine ⟨Nat.lt_of_le_of_lt hle hproduct, ?_⟩
  rw [mix_ofNat (by omega), BitVec.toNat_ofNat, Nat.mod_eq_of_lt]
  exact Nat.lt_succ_of_le ((Nat.div_le_div_right hle).trans hbyte)

/-- Settles O36: R179 bounds the product and the shifted product at full scale, and both grow with the sum. -/
theorem mixLosesNoBitOfALegalSum : Obligations.MixLosesNoBitOfALegalSum :=
  fun _ _ _ h hmin hmax hsum => mix_of_legal h hmin hmax hsum

/-- The default table on a legal sum, in natural numbers (R176). -/
theorem mix_default {n sum m k : Nat} (hmin : 1 ≤ n) (hmax : n ≤ 5) (hsum : sum ≤ 255 * n)
    (hm : (Config.default.mixPair n).1.toNat = m) (hk : (Config.default.mixPair n).2.toNat = k) :
    (mix (Config.default.mixPair n).1 (Config.default.mixPair n).2 (BitVec.ofNat 16 sum)).toNat =
      sum * m / 2 ^ k := by
  obtain ⟨-, hmix⟩ := mix_of_legal (c := Config.default) (by decide) hmin hmax hsum
  rw [hmix, hm, hk]

/-- Settles O37: the table's pairs are 1/1, 1/2, 1/4, 85/256 and 51/256, which the bounds compare with 1/3 and 1/5. -/
theorem mixErrorIsBounded : Obligations.MixErrorIsBounded := by
  unfold Obligations.MixErrorIsBounded
  intro out
  have hthree {sum : Nat} (h : sum ≤ 765) : out 3 sum = sum * 85 / 2 ^ 8 :=
    mix_default (by decide) (by decide) h rfl rfl
  have hfive {sum : Nat} (h : sum ≤ 1275) : out 5 sum = sum * 51 / 2 ^ 8 :=
    mix_default (by decide) (by decide) h rfl rfl
  refine ⟨?exact, fun sum h => ?three, fun sum h => ?five, by decide, by decide, by decide, by decide, by decide⟩
  case exact =>
    rintro n sum (rfl | rfl | rfl) h
    · exact (mix_default (m := 1) (k := 0) (by decide) (by decide) h rfl rfl).trans (by omega)
    · exact (mix_default (m := 1) (k := 1) (by decide) (by decide) h rfl rfl).trans (by omega)
    · exact (mix_default (m := 1) (k := 2) (by decide) (by decide) h rfl rfl).trans (by omega)
  case three =>
    rw [hthree h]
    omega
  case five =>
    rw [hfive h]
    omega

end Sys2Proof.Proofs
end

