-- ==== Sys2Proof/Proofs/SilentTwins.lean ====
section
/-!
Proofs that `PLAY 0` and `STOP` cannot be told apart (41_channel_set.md section 3): silent states that differ in the channel
indices and the mix pair alone stay so, or become equal, whatever the next input is.
-/

namespace Sys2Proof.Proofs

open Sys2Proof.Machine Sys2Proof.Laws

/-- A twin of a silent state is that state with other indices and another mix pair. -/
theorem silentTwins_iff (s t : State) :
    SilentTwins s t ↔ s.cnt = 0 ∧ ∃ chs m k, t = { s with chsel := chs, mixm := m, mixs := k } := by
  refine and_congr_right fun _ => ⟨fun h => ⟨_, _, _, h⟩, ?_⟩
  rintro ⟨_, _, _, rfl⟩
  rfl

/-- Both `PLAY 0` and `STOP` empty the list; only `PLAY` writes the indices and the pair (R144, R147). -/
theorem silentTwins_stop_play_zero {ch0 ch1 ch2 ch3 ch4 : CtxIdx} {s a b : State} (ha : exec .stop s = .next a)
    (hb : exec (.play 0 ch0 ch1 ch2 ch3 ch4) s = .next b) : SilentTwins a b := by
  rw [exec_play_accepted (by decide) (fun _ hw => absurd hw List.not_mem_nil)] at hb
  cases ha
  cases hb
  exact ⟨rfl, rfl⟩

/-- No instruction tells twins apart. -/
theorem exec_silentTwins {i : Instr} {s t s' : State} (h : SilentTwins s t) (hs : exec i s = .next s') :
    ∃ t', exec i t = .next t' ∧ (SilentTwins s' t' ∨ t' = s') := by
  obtain ⟨hcnt, chs, m, k, rfl⟩ := (silentTwins_iff s t).1 h
  cases i with
  | ecfg off mode rate =>
    cases hs
    rw [exec_ecfg]
    refine ⟨_, rfl, .inl ?_⟩
    split <;> exact ⟨hcnt, rfl⟩
  | play count ch0 ch1 ch2 ch3 ch4 =>
    cases hs
    rw [exec_play]
    refine ⟨_, rfl, ?_⟩
    split
    · exact .inl ⟨rfl, rfl⟩
    · exact .inr rfl
  | stop =>
    cases hs
    exact ⟨_, rfl, .inl ⟨rfl, rfl⟩⟩
  | wcfg w buf len step =>
    cases hs
    rw [exec_wcfg]
    refine ⟨_, rfl, .inl ?_⟩
    split <;> exact ⟨hcnt, rfl⟩
  | wstep w step =>
    cases hs
    rw [exec_wstep]
    refine ⟨_, rfl, .inl ?_⟩
    split <;> exact ⟨hcnt, rfl⟩
  | tick =>
    rw [exec_tick_of_cnt_eq_zero hcnt] at hs
    cases hs
    exact ⟨_, exec_tick_of_cnt_eq_zero hcnt, .inl h⟩

theorem runDecoded_silentTwins {d : Except DecodeError Instr} {s t s' : State} (h : SilentTwins s t)
    (hs : runDecoded d s = .next s') : ∃ t', runDecoded d t = .next t' ∧ (SilentTwins s' t' ∨ t' = s') := by
  cases d with
  | error e =>
    cases hs
    exact ⟨t, rfl, .inl h⟩
  | ok i => exact exec_silentTwins h hs

/-- Twins stay twins when the same inputs are left to both. -/
theorem silentTwins_with_inputs {s t : State} (h : SilentTwins s t) (rest : List Input) :
    SilentTwins { s with inputs := rest } { t with inputs := rest } := by
  obtain ⟨hcnt, _, _, _, rfl⟩ := (silentTwins_iff s t).1 h
  exact ⟨hcnt, rfl⟩

/-- No input tells twins apart: an event is no instruction or one that does not, a store of the host or an invalidation
writes nothing that differs, and a reset makes the two equal. -/
theorem step_silentTwins {s t s' : State} (h : SilentTwins s t) (hs : step s = .next s') :
    ∃ t', step t = .next t' ∧ (SilentTwins s' t' ∨ t' = s') := by
  obtain ⟨hcnt, chs, m, k, ht⟩ := (silentTwins_iff s t).1 h
  have hin : t.inputs = s.inputs := by rw [ht]
  rcases hi : s.inputs with _ | ⟨i, rest⟩
  · rw [step_idle hi] at hs
    cases hs
    exact ⟨t, step_idle (hin.trans hi), .inl h⟩
  · have hti := hin.trans hi
    cases i with
    | event e =>
      rw [step_event hi] at hs
      rw [step_event hti]
      exact runDecoded_silentTwins (silentTwins_with_inputs h rest) hs
    | commandAndTick c =>
      rw [step_both hi] at hs
      rw [step_both hti]
      exact runDecoded_silentTwins (silentTwins_with_inputs h _) hs
    | hostPort p v =>
      rw [step_hostPort hi] at hs
      cases hs
      subst ht
      exact ⟨_, step_hostPort hti, .inl (by cases p <;> exact ⟨hcnt, rfl⟩)⟩
    | hostStore space addr v =>
      rw [step_hostStore hi] at hs
      cases hs
      subst ht
      exact ⟨_, step_hostStore hti, .inl (by cases space <;> exact ⟨hcnt, rfl⟩)⟩
    | hostFree space addr =>
      rw [step_hostFree hi] at hs
      cases hs
      subst ht
      exact ⟨_, step_hostFree hti, .inl (by cases space <;> exact ⟨hcnt, rfl⟩)⟩
    | reset =>
      rw [step_reset hi] at hs
      cases hs
      subst ht
      exact ⟨_, step_reset hti, .inr rfl⟩

/-- Settles O21: `PLAY 0` and `STOP` leave twins, and no step tells twins apart. -/
theorem playZeroAndStopAreIndistinguishable : Obligations.PlayZeroAndStopAreIndistinguishable :=
  ⟨fun _ _ _ _ _ _ _ _ ha hb => silentTwins_stop_play_zero ha hb, fun _ _ _ h hs => step_silentTwins h hs⟩

end Sys2Proof.Proofs
end

