-- ==== Sys2Proof/Proofs/HostSide.lean ====
section
/-!
Proofs about the host's side (20_memory.md sections 1 and 3, 40_stepping.md section 4): a store of the host into a sample
memory or a port, and the step of a rate.
-/

namespace Sys2Proof.Proofs

open Sys2Proof.Machine Sys2Proof.Laws

/-! ### Stores -/

/-- The fetch after a store of the host at the context's address, in the memory `RMODE` selects, yields the byte stored. -/
theorem fetchByte_hostStore {s : State} {w : CtxIdx} {space : Space} {addr : Half} (hspace : spaceOf s.rmode = space)
    (haddr : (s.ctx w).buf + (s.ctx w).loc = addr) (v : Byte) : fetchByte w (hostStore space addr v s) = v := by
  have hread : readByte ((hostStore space addr v s).memory space) addr.toNat = some v := by
    rw [hostStore_read, if_pos ⟨rfl, rfl⟩]
  rw [fetchByte, ctx_hostStore, hostStore_rmode, hspace, sampleAddr, haddr]
  obtain ⟨hbyte, -⟩ := sampleByte_provided hread
  exact hbyte

/-- Settles O42: the memory law of the store, for the byte stored and every other, and the frame of a store of the host. -/
theorem hostStoreIsSeenByTheNextFetch : Obligations.HostStoreIsSeenByTheNextFetch := by
  intro s space addr v rest h
  obtain ⟨hctx, hch, hmix, hconfig, hten, hcfg⟩ := sameRegisters_hostStore s space addr v rest
  refine ⟨_, step_hostStore h, hostStore_inputs .., fun sp a => ?memory, fun w hspace haddr => ?fetch, hctx, hch, hmix,
    hconfig, hten, hostStore_pLo .., hostStore_pHi .., hostStore_trace .., hcfg⟩
  case memory => exact hostStore_read space addr v { s with inputs := rest } sp a
  case fetch => exact fetchByte_hostStore (s := { s with inputs := rest }) hspace haddr v

@[simp] theorem port_setPort (s : State) (p q : Port) (v : Byte) :
    (s.setPort p v).port q = if q = p then v else s.port q := by
  cases p <;> cases q <;> rfl

/-- Settles O43: the port read after the store is the one written or an old one, and the frame is that of a store of the
host. -/
theorem hostPortWriteReplacesOnePort : Obligations.HostPortWriteReplacesOnePort := by
  intro s p v rest h
  obtain ⟨hctx, hch, hmix, hconfig, hten, hcfg⟩ := sameRegisters_setPort s p v rest
  refine ⟨_, step_hostPort h, setPort_inputs .., ?same, fun q hq => ?other, hctx, hch, hmix, hconfig, hten,
    fun space a => ?memory, setPort_trace .., hcfg⟩
  case same => rw [port_setPort, if_pos rfl]
  case other =>
    rw [port_setPort, if_neg hq]
    cases q <;> rfl
  case memory => rw [memory_congr (setPort_ram ..) (setPort_rom ..)]; rfl

/-! ### The step of a rate -/

/-- A rate in passes per second has a step exactly where the rate of the tick source is not 0 and the quotient fits. -/
theorem stepOf_hz_eq_some {f n fs : Nat} {stp : Half} (h : stepOf .hz f n fs = some stp) :
    fs ≠ 0 ∧ stp.toNat = f * n * 512 / fs := by
  unfold stepOf at h
  split at h
  · rename_i hdefined
    obtain ⟨hfs, hfits⟩ := Bool.and_eq_true_iff.1 hdefined
    cases h
    exact ⟨of_decide_eq_true hfs,
      (BitVec.toNat_ofNat ..).trans (Nat.mod_eq_of_lt (of_decide_eq_true hfits))⟩
  · cases h

/-- Settles O44: the truncated quotient times the divisor is at most the dividend, and one more quotient is too much. -/
theorem stepOfIsTheTruncatedQuotient : Obligations.StepOfIsTheTruncatedQuotient := by
  refine ⟨fun d n fs => rfl, fun f n fs stp h => ?hz, by decide⟩
  case hz =>
    obtain ⟨hfs, hstp⟩ := stepOf_hz_eq_some h
    rw [hstp]
    exact ⟨Nat.div_mul_le_self _ _, Nat.lt_mul_of_div_lt (Nat.lt_succ_self _) (Nat.pos_of_ne_zero hfs)⟩

end Sys2Proof.Proofs
end
